-- ==== Sys2Proof/Config.lean ====
section
/-! DEFINITION. The parameters of the block. None of them is configurable (spec/00_scope.md R7, R8): the file names
the numbers that the other files use. The spec leaves no value of this block undefined (spec/10_state.md R36), so
there is no free value here. The one parameter that is left open, `WORD_BYTE_ORDER` (spec/20_memory.md R43), is read
by no rule and has no constant: a model must not assume a value for it (notes/assumptions/9.md). -/

namespace Sys2Proof.Config

/-- R7 `WORD_W`: width of a word in bits. -/
def wordW : Nat := 64
/-- R7 `SEL_W`: width of the selector code, bits [0,4) of a word. -/
def selW : Nat := 4
/-- R7 `PAYLOAD_W`: width of the payload, bits [4,64) of a word. -/
def payloadW : Nat := 60
/-- R7 `N_CODES`: how many selector codes are addressable. -/
def nCodes : Nat := 16
/-- R7 `N_ENTRIES`: how many codes have an entry. -/
def nEntries : Nat := 14
/-- R7 `VAL_W`: width of one value at the encoder's input and the decoder's output. -/
def valW : Nat := 64
/-- R7 `MAX_COUNT`: the largest slot count of any entry. -/
def maxCount : Nat := 60
/-- R7 `MAX_WIDTH`: the largest bitWidth of any entry. -/
def maxWidth : Nat := 60
/-- R8 `LANES` (D5, D11): value lanes at the encoder's input and the decoder's output. -/
def lanes : Nat := 60
/-- R8 `LEN_W` (D3, D5, D11): width of `enc_len`, `dec_len`, `rom_count`, `rom_width` and `enc_info`. -/
def lenW : Nat := 6
/-- R8 `STATUS_W` (D7): width of `enc_status`. -/
def statusW : Nat := 2
/-- R8 `LATENCY` (D1, D21): clock cycles from input to output. -/
def latency : Nat := 0

end Sys2Proof.Config
end

