-- ==== Sys2Proof/Word.lean ====
section
/-! DEFINITION. The types of the signals (spec/00_scope.md R7, R8; spec/10_state.md R25 to R29). Every one is a plain
bit vector: unsigned, bit 0 the least significant (R9, R10). The widths are written as numbers so that bit-vector
lemmas apply; Tests/Slice0.lean ties each to its parameter of Config. -/

namespace Sys2Proof

/-- A selector code: the table's address, `rom_code`, `enc_sel`, the low nibble of a word (R7 `SEL_W`). -/
abbrev Code := BitVec 4

/-- A packed word, "an opaque 64-bit unsigned integer" (R7 `WORD_W`). -/
abbrev Word := BitVec 64

/-- The 60 most significant bits of a word (R7 `PAYLOAD_W`). -/
abbrev Payload := BitVec 60

/-- One value on one lane (R7 `VAL_W`). -/
abbrev Value := BitVec 64

/-- A length or small count field: `enc_len`, `enc_info`, `dec_len`, `rom_count`, `rom_width` (R8 `LEN_W`). -/
abbrev Len := BitVec 6

/-- The sixty lanes of a value port, lane 0 first (R8 `LANES`). They are wires, not a register file
(spec/10_state.md R32). -/
abbrev Lanes := Vector Value 60

end Sys2Proof
end

