-- ==== Sys2Proof/Syntax.lean ====
section
/-! DEFINITION. The operation forms (spec/00_scope.md R2), one constructor per row of spec/opcode_table.json, and the
requests that carry them to the three units (spec/30_encoding.md R63 to R65). Every operand is a signal of its port's
width, so every term is a legal input: "no input combination is refused by the hardware" (spec/10_state.md R36). -/

namespace Sys2Proof

/-- The 48 operation forms. `LOOKUP.c` has no operand but its code; `ENCODE.s` has the length `enc_len` and the sixty
lanes `enc_val`; `DECODE.s` has the payload, the word's bits [63:4], its selector being the form. -/
inductive Instr where
  /-- `LOOKUP.0`, spec/40_selector_table.md R110. -/
  | lookup0
  /-- `LOOKUP.1`, spec/40_selector_table.md R111. -/
  | lookup1
  /-- `LOOKUP.2`, spec/40_selector_table.md R112. -/
  | lookup2
  /-- `LOOKUP.3`, spec/40_selector_table.md R113. -/
  | lookup3
  /-- `LOOKUP.4`, spec/40_selector_table.md R114. -/
  | lookup4
  /-- `LOOKUP.5`, spec/40_selector_table.md R115. -/
  | lookup5
  /-- `LOOKUP.6`, spec/40_selector_table.md R116. -/
  | lookup6
  /-- `LOOKUP.7`, spec/40_selector_table.md R117. -/
  | lookup7
  /-- `LOOKUP.8`, spec/40_selector_table.md R118. -/
  | lookup8
  /-- `LOOKUP.9`, spec/40_selector_table.md R119. -/
  | lookup9
  /-- `LOOKUP.10`, spec/40_selector_table.md R120. -/
  | lookup10
  /-- `LOOKUP.11`, spec/40_selector_table.md R121. -/
  | lookup11
  /-- `LOOKUP.12`, spec/40_selector_table.md R122. -/
  | lookup12
  /-- `LOOKUP.13`, spec/40_selector_table.md R123. -/
  | lookup13
  /-- `LOOKUP.14`, spec/40_selector_table.md R124. -/
  | lookup14
  /-- `LOOKUP.15`, spec/40_selector_table.md R125. -/
  | lookup15
  /-- `ENCODE.0`, spec/41_encoder.md R150. -/
  | encode0 (len : Len) (lanes : Lanes)
  /-- `ENCODE.1`, spec/41_encoder.md R151. -/
  | encode1 (len : Len) (lanes : Lanes)
  /-- `ENCODE.2`, spec/41_encoder.md R152. -/
  | encode2 (len : Len) (lanes : Lanes)
  /-- `ENCODE.3`, spec/41_encoder.md R153. -/
  | encode3 (len : Len) (lanes : Lanes)
  /-- `ENCODE.4`, spec/41_encoder.md R154. -/
  | encode4 (len : Len) (lanes : Lanes)
  /-- `ENCODE.5`, spec/41_encoder.md R155. -/
  | encode5 (len : Len) (lanes : Lanes)
  /-- `ENCODE.6`, spec/41_encoder.md R156. -/
  | encode6 (len : Len) (lanes : Lanes)
  /-- `ENCODE.7`, spec/41_encoder.md R157. -/
  | encode7 (len : Len) (lanes : Lanes)
  /-- `ENCODE.8`, spec/41_encoder.md R158. -/
  | encode8 (len : Len) (lanes : Lanes)
  /-- `ENCODE.9`, spec/41_encoder.md R159. -/
  | encode9 (len : Len) (lanes : Lanes)
  /-- `ENCODE.10`, spec/41_encoder.md R160. -/
  | encode10 (len : Len) (lanes : Lanes)
  /-- `ENCODE.11`, spec/41_encoder.md R161. -/
  | encode11 (len : Len) (lanes : Lanes)
  /-- `ENCODE.12`, spec/41_encoder.md R162. -/
  | encode12 (len : Len) (lanes : Lanes)
  /-- `ENCODE.13`, spec/41_encoder.md R163. -/
  | encode13 (len : Len) (lanes : Lanes)
  /-- `ENCODE.14`, spec/41_encoder.md R164. -/
  | encode14 (len : Len) (lanes : Lanes)
  /-- `ENCODE.15`, spec/41_encoder.md R165. -/
  | encode15 (len : Len) (lanes : Lanes)
  /-- `DECODE.0`, spec/42_decoder.md R190. -/
  | decode0 (payload : Payload)
  /-- `DECODE.1`, spec/42_decoder.md R191. -/
  | decode1 (payload : Payload)
  /-- `DECODE.2`, spec/42_decoder.md R192. -/
  | decode2 (payload : Payload)
  /-- `DECODE.3`, spec/42_decoder.md R193. -/
  | decode3 (payload : Payload)
  /-- `DECODE.4`, spec/42_decoder.md R194. -/
  | decode4 (payload : Payload)
  /-- `DECODE.5`, spec/42_decoder.md R195. -/
  | decode5 (payload : Payload)
  /-- `DECODE.6`, spec/42_decoder.md R196. -/
  | decode6 (payload : Payload)
  /-- `DECODE.7`, spec/42_decoder.md R197. -/
  | decode7 (payload : Payload)
  /-- `DECODE.8`, spec/42_decoder.md R198. -/
  | decode8 (payload : Payload)
  /-- `DECODE.9`, spec/42_decoder.md R199. -/
  | decode9 (payload : Payload)
  /-- `DECODE.10`, spec/42_decoder.md R200. -/
  | decode10 (payload : Payload)
  /-- `DECODE.11`, spec/42_decoder.md R201. -/
  | decode11 (payload : Payload)
  /-- `DECODE.12`, spec/42_decoder.md R202. -/
  | decode12 (payload : Payload)
  /-- `DECODE.13`, spec/42_decoder.md R203. -/
  | decode13 (payload : Payload)
  /-- `DECODE.14`, spec/42_decoder.md R204. -/
  | decode14 (payload : Payload)
  /-- `DECODE.15`, spec/42_decoder.md R205. -/
  | decode15 (payload : Payload)
  deriving DecidableEq, Repr

/-- The three request ports; the names are the formats of spec/opcode_table.json (R69). -/
inductive Port where
  /-- `rom_code` of the selector table (R63). -/
  | romAddr
  /-- `enc_sel`, `enc_len` and `enc_val` of the encoder (R64). -/
  | encReq
  /-- `dec_word` of the decoder (R65). -/
  | word
  deriving DecidableEq, Repr

/-- One request: the values a caller puts on the input signals of ONE unit. -/
inductive Request where
  /-- LOOKUP request, one field (R63). -/
  | romAddr (code : Code)
  /-- ENCODE request, three fields in 62 signals (R64). -/
  | encReq (sel : Code) (len : Len) (lanes : Lanes)
  /-- DECODE request, one field (R65). -/
  | word (w : Word)
  deriving DecidableEq, Repr

/-- The bits of a request, read as one number, bit 0 the least significant: for `romAddr` and `word` the port's own
bit numbers (R10); for `encReq` `enc_sel` in bits [3:0], `enc_len` in bits [9:4] and lane i in bits
[10+64i+63 : 10+64i] (DESIGN CHOICE, notes/assumptions/8.md; safe: the signals are separate wires and no rule reads
them as one number). A number may be too wide for its port: WellFormed.lean has the check. -/
structure Pattern where
  port : Port
  bits : Nat
  deriving DecidableEq, Repr

/-- Why a pattern is no request. -/
inductive DecodeError where
  /-- A bit is set that the port has no wire for, such as a code above 15 on the 4-bit `rom_code`, which is
  unrepresentable at the ports (R73, D22). -/
  | bitsOutsidePort (port : Port)
  deriving DecidableEq, Repr

end Sys2Proof
end

