-- ==== Sys2Proof/WellFormed.lean ====
section
/-! DEFINITION. The checks on syntax. The operands of an instruction and the signals of a request are typed by their
ports' widths, so there is no ill-formed instruction and no ill-formed request (spec/10_state.md R36: all codes,
words, lengths and lane values are legal inputs). What can be ill-formed is a pattern, a number that stands for the
bits of a port: it must not set a bit that the port has no wire for (spec/30_encoding.md R73). -/

namespace Sys2Proof

/-- How many bits a request on this port has: 4 (`rom_code`, R63), 4 + 6 + 60 × 64 (`enc_sel`, `enc_len`, `enc_val`,
R64), 64 (`dec_word`, R65). -/
def Port.width : Port → Nat
  | .romAddr => Config.selW
  | .encReq => Config.selW + Config.lenW + Config.lanes * Config.valW
  | .word => Config.wordW

/-- No bit above the port's last wire is set. -/
def Pattern.WellFormed (p : Pattern) : Bool := p.bits >>> p.port.width == 0

end Sys2Proof
end

