-- ==== Sys2Proof/Decode.lean ====
section
/-! DEFINITION. How a request is read as an operation form and how a form is written as a request
(spec/30_encoding.md R60 to R65, R69). `decode` and `encode` of this file are the model's reader and writer of
REQUESTS; the hardware's own `encode` and `decode` of words are `Machine.encodeWord` and `Machine.decodeWord`
(Machine/Ops.lean). -/

namespace Sys2Proof

/-- Lane i of a value port (spec/20_memory.md R42). A port has lanes 0 to 59; past them there is no wire, and the
model reads 0 there (no operation asks: R142 reads lanes below a count of at most 60). -/
def lane (lanes : Lanes) (i : Nat) : Value := lanes[i]?.getD 0

/-- The value port whose lane i holds `f i`. -/
def lanesOf (f : Nat → Value) : Lanes := Vector.ofFn fun i => f i.val

/-- `selector = word & 0xF`: bits [3:0] of a word (R60). -/
def selectorOf (w : Word) : Code := w.extractLsb' 0 4

/-- `payload = word >> 4`: bits [63:4] of a word (R60). -/
def payloadOf (w : Word) : Payload := w.extractLsb' 4 60

/-- `word = selector | (payload << 4)` (R60): the payload above the selector nibble. -/
def wordOf (payload : Payload) (sel : Code) : Word := payload ++ sel

/-- The form `LOOKUP.c` that `rom_code = c` selects (R63). The last arm is code 15: a code has four bits. -/
def lookupForm (c : Code) : Instr :=
  match c with
  | 0 => .lookup0
  | 1 => .lookup1
  | 2 => .lookup2
  | 3 => .lookup3
  | 4 => .lookup4
  | 5 => .lookup5
  | 6 => .lookup6
  | 7 => .lookup7
  | 8 => .lookup8
  | 9 => .lookup9
  | 10 => .lookup10
  | 11 => .lookup11
  | 12 => .lookup12
  | 13 => .lookup13
  | 14 => .lookup14
  | _ => .lookup15

/-- The form `ENCODE.s` that `enc_sel = s` selects (R64). The last arm is code 15: a code has four bits. -/
def encodeForm (c : Code) (len : Len) (lanes : Lanes) : Instr :=
  match c with
  | 0 => .encode0 len lanes
  | 1 => .encode1 len lanes
  | 2 => .encode2 len lanes
  | 3 => .encode3 len lanes
  | 4 => .encode4 len lanes
  | 5 => .encode5 len lanes
  | 6 => .encode6 len lanes
  | 7 => .encode7 len lanes
  | 8 => .encode8 len lanes
  | 9 => .encode9 len lanes
  | 10 => .encode10 len lanes
  | 11 => .encode11 len lanes
  | 12 => .encode12 len lanes
  | 13 => .encode13 len lanes
  | 14 => .encode14 len lanes
  | _ => .encode15 len lanes

/-- The form `DECODE.s` that `dec_word[3:0] = s` selects (R65). The last arm is code 15: a code has four bits. -/
def decodeForm (c : Code) (payload : Payload) : Instr :=
  match c with
  | 0 => .decode0 payload
  | 1 => .decode1 payload
  | 2 => .decode2 payload
  | 3 => .decode3 payload
  | 4 => .decode4 payload
  | 5 => .decode5 payload
  | 6 => .decode6 payload
  | 7 => .decode7 payload
  | 8 => .decode8 payload
  | 9 => .decode9 payload
  | 10 => .decode10 payload
  | 11 => .decode11 payload
  | 12 => .decode12 payload
  | 13 => .decode13 payload
  | 14 => .decode14 payload
  | _ => .decode15 payload

/-- The form a request asks for. Every request asks for one: the selector field is fully decoded (R69) and no code
is set aside (R73). -/
def decodeRequest : Request → Instr
  | .romAddr code => lookupForm code
  | .encReq sel len lanes => encodeForm sel len lanes
  | .word w => decodeForm (selectorOf w) (payloadOf w)

/-- The request whose bits are the pattern's, taken wire by wire (the layout is Syntax.lean's `Pattern`). Bits outside the
port are dropped here; `decode` asks only for patterns that have none (DESIGN CHOICE, safe, notes/assumptions/18.md). -/
def requestOf (p : Pattern) : Request :=
  match p.port with
  | .romAddr => .romAddr (BitVec.ofNat 4 p.bits)
  | .encReq => .encReq (BitVec.ofNat 4 p.bits) (BitVec.ofNat 6 (p.bits >>> 4))
      (lanesOf fun i => BitVec.ofNat 64 (p.bits >>> (10 + 64 * i)))
  | .word => .word (BitVec.ofNat 64 p.bits)

/-- THE DECODER of request patterns: total, and a pattern that sets a bit its port has no wire for is rejected by
name (R73). -/
def decode (p : Pattern) : Except DecodeError Instr :=
  if p.WellFormed then .ok (decodeRequest (requestOf p)) else .error (.bitsOutsidePort p.port)

/-- Which port carries an opcode-table word of this many bits. A `ROM_ADDR` row has 4 bits, in whole bytes 8; a `WORD`
row 64; a whole ENCODE request 3850 bits, in whole bytes 3856. The ENCODE rows of the table give `enc_sel` alone, 4
bits, and so have the SAME words as the LOOKUP rows: such a word is read as a LOOKUP, whose request it is whole
(DESIGN CHOICE, notes/assumptions/7.md). -/
def portOfWidth (nbits : Nat) : Option Port :=
  if nbits = 4 ∨ nbits = 8 then some .romAddr
  else if nbits = 64 then some .word
  else if nbits = 3850 ∨ nbits = 3856 then some .encReq
  else none

/-- The pattern an opcode-table word stands for. -/
def patternOfTableWord (nbits w : Nat) : Option Pattern := (portOfWidth nbits).map fun p => ⟨p, w⟩

/-- The instruction the decoder reads from an instruction whose bits are `w`, numbered as spec/opcode_table.json
numbers them; none where no port has that width or the decoder rejects the pattern. There are no bytes to lay out: a
request reaches its port as parallel bits (spec/20_memory.md R43). -/
def decodeTableWord (nbits w : Nat) : Option Instr :=
  (patternOfTableWord nbits w).bind fun p => (decode p).toOption

/-! ### The encoder of request patterns -/

/-- The request that asks for a form (R63 to R65): the form's number is on the code field, the operands are on the
other fields. -/
def encodeRequest : Instr → Request
  | .lookup0 => .romAddr 0
  | .lookup1 => .romAddr 1
  | .lookup2 => .romAddr 2
  | .lookup3 => .romAddr 3
  | .lookup4 => .romAddr 4
  | .lookup5 => .romAddr 5
  | .lookup6 => .romAddr 6
  | .lookup7 => .romAddr 7
  | .lookup8 => .romAddr 8
  | .lookup9 => .romAddr 9
  | .lookup10 => .romAddr 10
  | .lookup11 => .romAddr 11
  | .lookup12 => .romAddr 12
  | .lookup13 => .romAddr 13
  | .lookup14 => .romAddr 14
  | .lookup15 => .romAddr 15
  | .encode0 len lanes => .encReq 0 len lanes
  | .encode1 len lanes => .encReq 1 len lanes
  | .encode2 len lanes => .encReq 2 len lanes
  | .encode3 len lanes => .encReq 3 len lanes
  | .encode4 len lanes => .encReq 4 len lanes
  | .encode5 len lanes => .encReq 5 len lanes
  | .encode6 len lanes => .encReq 6 len lanes
  | .encode7 len lanes => .encReq 7 len lanes
  | .encode8 len lanes => .encReq 8 len lanes
  | .encode9 len lanes => .encReq 9 len lanes
  | .encode10 len lanes => .encReq 10 len lanes
  | .encode11 len lanes => .encReq 11 len lanes
  | .encode12 len lanes => .encReq 12 len lanes
  | .encode13 len lanes => .encReq 13 len lanes
  | .encode14 len lanes => .encReq 14 len lanes
  | .encode15 len lanes => .encReq 15 len lanes
  | .decode0 payload => .word (wordOf payload 0)
  | .decode1 payload => .word (wordOf payload 1)
  | .decode2 payload => .word (wordOf payload 2)
  | .decode3 payload => .word (wordOf payload 3)
  | .decode4 payload => .word (wordOf payload 4)
  | .decode5 payload => .word (wordOf payload 5)
  | .decode6 payload => .word (wordOf payload 6)
  | .decode7 payload => .word (wordOf payload 7)
  | .decode8 payload => .word (wordOf payload 8)
  | .decode9 payload => .word (wordOf payload 9)
  | .decode10 payload => .word (wordOf payload 10)
  | .decode11 payload => .word (wordOf payload 11)
  | .decode12 payload => .word (wordOf payload 12)
  | .decode13 payload => .word (wordOf payload 13)
  | .decode14 payload => .word (wordOf payload 14)
  | .decode15 payload => .word (wordOf payload 15)

/-- The lanes of a value port as one number, the first lane lowest, 64 bits a lane. -/
def laneBits : List Value → Nat
  | [] => 0
  | v :: vs => v.toNat ||| (laneBits vs <<< 64)

/-- The bits of a request (the layout is Syntax.lean's `Pattern`). -/
def patternOf : Request → Pattern
  | .romAddr code => ⟨.romAddr, code.toNat⟩
  | .encReq sel len lanes => ⟨.encReq, sel.toNat ||| (len.toNat <<< 4) ||| (laneBits lanes.toList <<< 10)⟩
  | .word w => ⟨.word, w.toNat⟩

/-- THE ENCODER: the pattern of an instruction's request. -/
def encode (i : Instr) : Pattern := patternOf (encodeRequest i)

end Sys2Proof
end

