-- ==== Sys2Proof/Machine/State.lean ====
section
/-! DEFINITION. The machine's state. The block itself has none (spec/10_state.md R20 to R22, R30 to R33): a unit is a
function of its inputs. What `State` holds is the value on every port of the block (R25 to R29, listed in
INVENTORY.md) and, as the model's own field, the requests its caller has still to present (notes/assumptions/1.md,
3.md). The selector table is a constant and no part of the state (R34). -/

namespace Sys2Proof.Machine

/-- The outputs of the selector table unit (R25). -/
structure RomResponse where
  /-- `rom_valid`: 1 when the code has an entry. -/
  valid : BitVec 1
  /-- `rom_count`: the entry's slot count; 0 when absent. -/
  count : Len
  /-- `rom_width`: the entry's bitWidth; 0 when absent. -/
  width : Len
  deriving DecidableEq, Repr

/-- The outputs of the encoder (R27). -/
structure EncResponse where
  /-- `enc_word`: the packed word; 0 when the selector is invalid and on a failure. -/
  word : Word
  /-- `enc_status`: the code of spec/60_exceptions.md R234. -/
  status : BitVec 2
  /-- `enc_info`: what a failure records (spec/60_exceptions.md R237). -/
  info : Len
  deriving DecidableEq, Repr

/-- The outputs of the decoder (R29). -/
structure DecResponse where
  /-- `dec_len`: the length of the result. -/
  len : Len
  /-- `dec_val[0..59]`: the result, and 0 on the lanes past it. -/
  val : Lanes
  /-- `dec_status`: 0 OK, 1 INVALID_SELECTOR. -/
  status : BitVec 1
  /-- `dec_pad_nz`: advisory, 1 when the word breaks the padding invariant. -/
  padNz : BitVec 1
  deriving DecidableEq, Repr

/-- THE BLOCK'S OWN state: the unit type, "A model's machine state type for this block is the unit type" (R20). It has
one value, so nothing an operation does can change it and nothing can be read from it. -/
abbrev BlockState := Unit

/-- The block's own state with what surrounds the block: the signals on its ports (R25 to R29), which are its inputs and
their outputs and no state of it (R20, R30), and the caller's requests. The host's interface has ONE state type, in which
a step finds its request and shows its result; that the surroundings are held in it beside the block's own state is the
model's choice (DESIGN CHOICE, safe, notes/assumptions/1.md). -/
structure State where
  /-- All that the block keeps from one operation to the next: nothing (R20). -/
  block : BlockState
  /-- THE MODEL'S OWN field: the requests the caller has still to present, oldest first. Their order is the caller's
  (spec/10_state.md R22). DESIGN CHOICE, notes/assumptions/3.md; safe: nothing in the block reads it. -/
  requests : List Request
  /-- `rom_code` (R25). -/
  romCode : Code
  /-- `rom_valid`, `rom_count`, `rom_width` (R25). -/
  romResp : RomResponse
  /-- `enc_sel` (R26). -/
  encSel : Code
  /-- `enc_len` (R26). -/
  encLen : Len
  /-- `enc_val[0..59]` (R26). -/
  encVal : Lanes
  /-- `enc_word`, `enc_status`, `enc_info` (R27). -/
  encResp : EncResponse
  /-- `dec_word` (R28). -/
  decWord : Word
  /-- `dec_len`, `dec_val[0..59]`, `dec_status`, `dec_pad_nz` (R29). -/
  decResp : DecResponse
  deriving DecidableEq, Repr

/-- Faults: there are none. "All failures are synchronous, local, and non-fatal" (spec/60_exceptions.md R236): a
failing encode is delivered on the encoder's outputs and the machine goes on; there is no trap (R239) and nothing is
stuck (spec/00_scope.md R17). The closed type has no constructor, so no step can answer one; safe
(notes/assumptions/10.md, 17.md). -/
inductive Fault where
  deriving DecidableEq, Repr

/-- Refusals. The hardware refuses no input (spec/10_state.md R36). -/
inductive Refusal where
  /-- Raised only by an arm of `exec` for an instruction with no meaning yet; no arm of this model answers it; safe. -/
  | notModelled (mnemonic : String)
  deriving DecidableEq, Repr

/-- Power-up (R34). The spec has no reset value to give, for nothing is stored; every INPUT port is taken to be driven
with 0 until its caller drives it (DESIGN CHOICE, unsafe, notes/assumptions/2.md), no request is waiting
(notes/assumptions/3.md), and every OUTPUT is what its unit's function gives for those inputs: selector 0 has no
entry, so `rom_valid` is 0 and both statuses are 1, INVALID_SELECTOR. -/
def State.reset : State where
  block := ()
  requests := []
  romCode := 0
  romResp := ⟨0, 0, 0⟩
  encSel := 0
  encLen := 0
  encVal := Vector.replicate 60 0
  encResp := ⟨0, 1, 0⟩
  decWord := 0
  decResp := ⟨0, Vector.replicate 60 0, 1, 0⟩

end Sys2Proof.Machine
end

