-- ==== Sys2Proof/Machine/Operands.lean ====
section
/-! DEFINITION. How operands are assembled from bits and into bits (spec/30_encoding.md R61, R62, R67, R68), and how a
sequence of values is carried on lanes (spec/00_scope.md R14). -/

namespace Sys2Proof.Machine

/-- An entry of the selector table, `(count, bitWidth)` (spec/40_selector_table.md R100; the code is the address and
is not stored, C7). -/
structure Entry where
  count : Nat
  bitWidth : Nat
  deriving DecidableEq, Repr

/-- `slotmask(w) = (1 << w) - 1` (spec/00_scope.md R12). The spec gives it for w in 0..60; past 60 this function follows the
same formula (DESIGN CHOICE, safe, notes/assumptions/18.md). -/
def slotmask (w : Nat) : Nat := (1 <<< w) - 1

/-- The lowest word bit of slot i: slot i is `word[4 + (i+1)·bitWidth - 1 : 4 + i·bitWidth]` (R61). -/
def slotLsb (bitWidth i : Nat) : Nat := 4 + i * bitWidth

/-- The lowest word bit above the last slot: bits [63 : 4 + count·bitWidth] are padding (R62). -/
def padLsb (e : Entry) : Nat := 4 + e.count * e.bitWidth

/-- Slot i of a word as a 64-bit value, zero-extended (R67). The spec gives slots 0 to count - 1 of an entry (R61); past
them this function follows the same bit positions, with 0 past bit 63 (DESIGN CHOICE, safe, notes/assumptions/18.md). -/
def slotOf (bitWidth i : Nat) (w : Word) : Value := (w.extractLsb' (slotLsb bitWidth i) bitWidth).setWidth 64

/-- A word that has the low `bitWidth` bits of a value, `v[bitWidth-1:0]`, in slot i and 0 elsewhere (R68). Past the slots
of an entry it follows the same bit positions, and bits past 63 are lost (DESIGN CHOICE, safe,
notes/assumptions/18.md). -/
def inSlot (bitWidth i : Nat) (v : Value) : Word := (v.extractLsb' 0 bitWidth).setWidth 64 <<< slotLsb bitWidth i

/-- `zeros(n)` (spec/00_scope.md R11). -/
def zeros (n : Nat) : List Nat := List.replicate n 0

/-- `pad(values, n)`: the values right-padded with zeros to length n (R79). The spec gives it for `len(values) ≤ n` only;
for a longer sequence this function answers the values unchanged (DESIGN CHOICE, safe, notes/assumptions/18.md). -/
def pad (values : List Nat) (n : Nat) : List Nat := values ++ zeros (n - values.length)

/-- The sequence that a length n and sixty lanes carry: element i is on lane i (R14, spec/20_memory.md R42). For the
encoder's n of 61, 62 or 63 the sequence has length n all the same, longer than any entry's count
(spec/10_state.md R26); its elements past lane 59 are on no wire and read as 0 here, which nothing looks at
(DEDUCED, safe, notes/assumptions/13.md). -/
def laneValues (n : Nat) (lanes : Lanes) : List Nat := (List.range n).map fun i => (lane lanes i).toNat

end Sys2Proof.Machine
end

