-- ==== Sys2Proof/Machine/Flags.lean ====
section
/-! DEFINITION. The status outputs (spec/60_exceptions.md R234, R237; spec/42_decoder.md R180) and the tests behind
them. None is stored, sticky or read by an operation (spec/10_state.md R30). -/

namespace Sys2Proof.Machine

/-- `enc_status` = 0, `OK` (R234). -/
def encOk : BitVec 2 := 0
/-- `enc_status` = 1, `INVALID_SELECTOR`: a status beside the sentinel result, not a failure (R233). -/
def encInvalidSelector : BitVec 2 := 1
/-- `enc_status` = 2, `TOO_MANY_VALUES` (R232). -/
def encTooManyValues : BitVec 2 := 2
/-- `enc_status` = 3, `VALUE_OUT_OF_RANGE` (R231). -/
def encValueOutOfRange : BitVec 2 := 3
/-- `dec_status` = 0, `OK` (R234). -/
def decOk : BitVec 1 := 0
/-- `dec_status` = 1, `INVALID_SELECTOR` (R234); the other two codes cannot occur on the decode side (R247). -/
def decInvalidSelector : BitVec 1 := 1

/-- The range test on one lane, `enc_val[i][63:bitWidth] != 0` (spec/41_encoder.md R141, R142). -/
def misfits (bitWidth : Nat) (v : Value) : Bool := v >>> bitWidth != 0

/-- The lowest lane below n whose value does not fit, if there is one (R142, R237). -/
def firstMisfit (bitWidth n : Nat) (lanes : Lanes) : Option Nat :=
  (List.range n).find? fun i => misfits bitWidth (lane lanes i)

/-- The lowest index of an element that does not fit, counting from `i`, if there is one
(spec/41_encoder.md R130, R137). -/
def firstTooLarge (bitWidth : Nat) : Nat → List Nat → Option Nat
  | _, [] => none
  | i, v :: vs => if 2 ^ bitWidth ≤ v then some i else firstTooLarge bitWidth (i + 1) vs

/-- `dec_pad_nz` for a word whose selector has this entry: 1 when the entry leaves padding bits and one of them is 1
(spec/42_decoder.md R178, R180). -/
def padFlag (e : Entry) (w : Word) : BitVec 1 :=
  if e.count * e.bitWidth < 60 ∧ w >>> padLsb e ≠ 0 then 1 else 0

end Sys2Proof.Machine
end

