-- ==== Sys2Proof/Machine/Ops.lean ====
section
/-! DEFINITION. The operations that the meanings share: the selector table, the two functions of the codec at the
function level, the three units at the port level, and an evaluation of a unit (spec/00_scope.md R14 for the two
levels, spec/10_state.md R23 for an evaluation). -/

namespace Sys2Proof.Machine

/-! ### The selector table -/

/-- "The canonical table" (spec/40_selector_table.md R101): code, then `(count, bitWidth)`. -/
def canonicalTable : List (Nat × Entry) :=
  [(1, ⟨60, 1⟩), (2, ⟨30, 2⟩), (3, ⟨20, 3⟩), (4, ⟨15, 4⟩), (5, ⟨12, 5⟩), (6, ⟨10, 6⟩), (7, ⟨8, 7⟩), (8, ⟨7, 8⟩),
   (9, ⟨6, 10⟩), (10, ⟨5, 12⟩), (11, ⟨4, 15⟩), (12, ⟨3, 20⟩), (13, ⟨2, 30⟩), (14, ⟨1, 60⟩)]

/-- `entryFor(code)`; `none` is `absent` (R100). The code is a natural number, so codes above 15 are absent too, as
R73 asks of a model with a wider code type (C1, D22). -/
def entryFor (code : Nat) : Option Entry :=
  if 1 ≤ code ∧ code ≤ 14 then canonicalTable.lookup code else none

/-- `count(s)` of a valid s (R104); 0 for a code with no entry, where the spec defines none (DESIGN CHOICE, safe,
notes/assumptions/18.md). -/
def countOf (code : Nat) : Nat := ((entryFor code).map Entry.count).getD 0

/-- `bitWidth(s)` of a valid s (R104); 0 for a code with no entry, where the spec defines none (DESIGN CHOICE, safe,
notes/assumptions/18.md). -/
def widthOf (code : Nat) : Nat := ((entryFor code).map Entry.bitWidth).getD 0

/-- The 13-bit ROM entry at an address: `valid` [12], `count` [11:6], `width` [5:0], all 0 for "no entry"
(spec/10_state.md R24, D3). -/
def romEntry (c : Code) : BitVec 13 :=
  match entryFor c.toNat with
  | none => 0
  | some e => (1#1 ++ BitVec.ofNat 6 e.count) ++ BitVec.ofNat 6 e.bitWidth

/-- The selector table unit: the fields of the addressed entry on its outputs (R103). -/
def romPorts (c : Code) : RomResponse where
  valid := (romEntry c).extractLsb' 12 1
  count := (romEntry c).extractLsb' 6 6
  width := (romEntry c).extractLsb' 0 6

/-- A word is well-formed when its selector has an entry and its padding bits are 0 (spec/30_encoding.md R76). -/
def wellFormedWord (w : Word) : Bool :=
  match entryFor (selectorOf w).toNat with
  | none => false
  | some e => w >>> padLsb e == 0

/-! ### The codec at the function level -/

/-- What an encode ends in (spec/41_encoder.md R130): a word, or one of the two failures, each a constructor of the
result type (spec/60_exceptions.md R236). -/
inductive EncodeResult where
  /-- A word: packed, or the zero word of an invalid selector. -/
  | word (w : Word)
  /-- `TooManyValues(n)`, n the length given (R138). -/
  | tooManyValues (n : Nat)
  /-- `ValueOutOfRange(i)`, i the lowest offending index (R137). -/
  | valueOutOfRange (i : Nat)
  deriving DecidableEq, Repr

/-- `packedPayload`: the or of `values[i] << (i·bitWidth)`, counting indices from `i` (R130, R133). -/
def packedPayload (bitWidth : Nat) : Nat → List Nat → Nat
  | _, [] => 0
  | i, v :: vs => (v <<< (i * bitWidth)) ||| packedPayload bitWidth (i + 1) vs

/-- `encode(selectorCode, values)` (R130): the selector is looked up first, then the length is checked, then the values
in ascending order (R139). The values are unsigned integers of any size (C3). -/
def encodeWord (sel : Code) (values : List Nat) : EncodeResult :=
  match entryFor sel.toNat with
  | none => .word 0
  | some e =>
    if e.count < values.length then .tooManyValues values.length
    else
      match firstTooLarge e.bitWidth 0 values with
      | some i => .valueOutOfRange i
      | none => .word (BitVec.ofNat 64 (sel.toNat ||| (packedPayload e.bitWidth 0 values <<< 4)))

/-- `decode(word)` (spec/42_decoder.md R170): exactly `count` values, or none when the selector has no entry. -/
def decodeWord (w : Word) : List Nat :=
  match entryFor (w.toNat &&& 0xF) with
  | none => []
  | some e => (List.range e.count).map fun i => ((w.toNat >>> 4) >>> (i * e.bitWidth)) &&& slotmask e.bitWidth

/-! ### The encoder and the decoder at the port level -/

/-- DELIVERY OF A FAILURE (spec/60_exceptions.md R236), the one shared operation that stands in place of trap entry:
the status takes the code, `enc_info` the recorded value, `enc_word` is 0. Nothing is saved and control goes nowhere
(R239), and there is no return from it (R240). -/
def deliverFailure (status : BitVec 2) (info : Len) : EncResponse := ⟨0, status, info⟩

/-- The word the encoder gives when nothing fails (spec/41_encoder.md R142): `enc_sel` in bits [3:0], lane i's low
`bitWidth` bits in slot i for i below the length, 0 in the other slots and in the padding. -/
def placeLanes (sel : Code) (e : Entry) (len : Len) (lanes : Lanes) : Word :=
  (List.range e.count).foldl
    (fun w i => w ||| (if i < len.toNat then inSlot e.bitWidth i (lane lanes i) else 0)) (sel.setWidth 64)

/-- The encoder (R142). -/
def encPorts (sel : Code) (len : Len) (lanes : Lanes) : EncResponse :=
  match entryFor sel.toNat with
  | none => ⟨0, encInvalidSelector, 0⟩
  | some e =>
    if e.count < len.toNat then deliverFailure encTooManyValues len
    else
      match firstMisfit e.bitWidth len.toNat lanes with
      | some i => deliverFailure encValueOutOfRange (BitVec.ofNat 6 i)
      | none => ⟨placeLanes sel e len lanes, encOk, 0⟩

/-- The decoder (spec/42_decoder.md R178 to R180). -/
def decPorts (w : Word) : DecResponse :=
  match entryFor (selectorOf w).toNat with
  | none => ⟨0, lanesOf fun _ => 0, decInvalidSelector, 0⟩
  | some e =>
    ⟨BitVec.ofNat 6 e.count, lanesOf fun i => if i < e.count then slotOf e.bitWidth i w else 0, decOk, padFlag e w⟩

/-- How an outcome of the function level appears at the encoder's ports (spec/60_exceptions.md R234, R236): a word
beside status 0, or beside status 1 when the selector has no entry; a failure by its delivery. A length above 63, which
no port can carry (R14, spec/10_state.md R26), is cut to the 6 bits of `enc_info` here (DESIGN CHOICE, safe,
notes/assumptions/18.md). -/
def encResponseOf (sel : Code) : EncodeResult → EncResponse
  | .word w => ⟨w, if (entryFor sel.toNat).isSome then encOk else encInvalidSelector, 0⟩
  | .tooManyValues n => deliverFailure encTooManyValues (BitVec.ofNat 6 n)
  | .valueOutOfRange i => deliverFailure encValueOutOfRange (BitVec.ofNat 6 i)

/-! ### One evaluation of one unit

A request puts its values on the unit's input ports; the outputs are the unit's function of them (spec/10_state.md
R23). The other units' ports are not touched: each output depends on its own unit's inputs only
(spec/70_reset_and_hazards.md R269), and their caller holds their inputs (notes/assumptions/4.md, 5.md). -/

/-- An evaluation of the selector table unit. -/
def State.evalRom (s : State) (c : Code) : State := { s with romCode := c, romResp := romPorts c }

/-- An evaluation of the encoder. -/
def State.evalEnc (s : State) (sel : Code) (len : Len) (lanes : Lanes) : State :=
  { s with encSel := sel, encLen := len, encVal := lanes, encResp := encPorts sel len lanes }

/-- An evaluation of the decoder. -/
def State.evalDec (s : State) (w : Word) : State := { s with decWord := w, decResp := decPorts w }

/-! ### Where the next request comes from -/

/-- The oldest waiting request and the state in which it is no longer waiting; none when the caller presents nothing
(notes/assumptions/3.md). -/
def State.presented (s : State) : Option (Request × State) :=
  match s.requests with
  | [] => none
  | r :: rest => some (r, { s with requests := rest })

/-- The caller has one more request, presented before those already waiting. -/
def State.presentFirst (s : State) (r : Request) : State := { s with requests := r :: s.requests }

end Sys2Proof.Machine
end

