-- ==== Sys2Proof/Machine/Decoder.lean ====
section
/-! DEFINITION. The DECODE forms (spec/42_decoder.md R178, R190 to R205): the unpacked values on the decoder's outputs. A decode
never fails (R182). -/

namespace Sys2Proof.Machine

/-- `DECODE.0` (R190). -/
def execDecode0 (payload : Payload) (s : State) : Host.Outcome State Fault Refusal :=
  .next (s.evalDec (wordOf payload 0))

/-- `DECODE.1` (R191). -/
def execDecode1 (payload : Payload) (s : State) : Host.Outcome State Fault Refusal :=
  .next (s.evalDec (wordOf payload 1))

/-- `DECODE.2` (R192). -/
def execDecode2 (payload : Payload) (s : State) : Host.Outcome State Fault Refusal :=
  .next (s.evalDec (wordOf payload 2))

/-- `DECODE.3` (R193). -/
def execDecode3 (payload : Payload) (s : State) : Host.Outcome State Fault Refusal :=
  .next (s.evalDec (wordOf payload 3))

/-- `DECODE.4` (R194). -/
def execDecode4 (payload : Payload) (s : State) : Host.Outcome State Fault Refusal :=
  .next (s.evalDec (wordOf payload 4))

/-- `DECODE.5` (R195). -/
def execDecode5 (payload : Payload) (s : State) : Host.Outcome State Fault Refusal :=
  .next (s.evalDec (wordOf payload 5))

/-- `DECODE.6` (R196). -/
def execDecode6 (payload : Payload) (s : State) : Host.Outcome State Fault Refusal :=
  .next (s.evalDec (wordOf payload 6))

/-- `DECODE.7` (R197). -/
def execDecode7 (payload : Payload) (s : State) : Host.Outcome State Fault Refusal :=
  .next (s.evalDec (wordOf payload 7))

/-- `DECODE.8` (R198). -/
def execDecode8 (payload : Payload) (s : State) : Host.Outcome State Fault Refusal :=
  .next (s.evalDec (wordOf payload 8))

/-- `DECODE.9` (R199). -/
def execDecode9 (payload : Payload) (s : State) : Host.Outcome State Fault Refusal :=
  .next (s.evalDec (wordOf payload 9))

/-- `DECODE.10` (R200). -/
def execDecode10 (payload : Payload) (s : State) : Host.Outcome State Fault Refusal :=
  .next (s.evalDec (wordOf payload 10))

/-- `DECODE.11` (R201). -/
def execDecode11 (payload : Payload) (s : State) : Host.Outcome State Fault Refusal :=
  .next (s.evalDec (wordOf payload 11))

/-- `DECODE.12` (R202). -/
def execDecode12 (payload : Payload) (s : State) : Host.Outcome State Fault Refusal :=
  .next (s.evalDec (wordOf payload 12))

/-- `DECODE.13` (R203). -/
def execDecode13 (payload : Payload) (s : State) : Host.Outcome State Fault Refusal :=
  .next (s.evalDec (wordOf payload 13))

/-- `DECODE.14` (R204). -/
def execDecode14 (payload : Payload) (s : State) : Host.Outcome State Fault Refusal :=
  .next (s.evalDec (wordOf payload 14))

/-- `DECODE.15` (R205). -/
def execDecode15 (payload : Payload) (s : State) : Host.Outcome State Fault Refusal :=
  .next (s.evalDec (wordOf payload 15))

end Sys2Proof.Machine
end

