-- ==== Sys2Proof/Machine/Encoder.lean ====
section
/-! DEFINITION. The ENCODE forms (spec/41_encoder.md R142, R150 to R165): the packed word, or status 1 for selectors 0 and 15, or a
failure delivered as status 2 or 3, on the encoder's outputs. -/

namespace Sys2Proof.Machine

/-- `ENCODE.0` (R150). -/
def execEncode0 (len : Len) (lanes : Lanes) (s : State) : Host.Outcome State Fault Refusal :=
  .next (s.evalEnc 0 len lanes)

/-- `ENCODE.1` (R151). -/
def execEncode1 (len : Len) (lanes : Lanes) (s : State) : Host.Outcome State Fault Refusal :=
  .next (s.evalEnc 1 len lanes)

/-- `ENCODE.2` (R152). -/
def execEncode2 (len : Len) (lanes : Lanes) (s : State) : Host.Outcome State Fault Refusal :=
  .next (s.evalEnc 2 len lanes)

/-- `ENCODE.3` (R153). -/
def execEncode3 (len : Len) (lanes : Lanes) (s : State) : Host.Outcome State Fault Refusal :=
  .next (s.evalEnc 3 len lanes)

/-- `ENCODE.4` (R154). -/
def execEncode4 (len : Len) (lanes : Lanes) (s : State) : Host.Outcome State Fault Refusal :=
  .next (s.evalEnc 4 len lanes)

/-- `ENCODE.5` (R155). -/
def execEncode5 (len : Len) (lanes : Lanes) (s : State) : Host.Outcome State Fault Refusal :=
  .next (s.evalEnc 5 len lanes)

/-- `ENCODE.6` (R156). -/
def execEncode6 (len : Len) (lanes : Lanes) (s : State) : Host.Outcome State Fault Refusal :=
  .next (s.evalEnc 6 len lanes)

/-- `ENCODE.7` (R157). -/
def execEncode7 (len : Len) (lanes : Lanes) (s : State) : Host.Outcome State Fault Refusal :=
  .next (s.evalEnc 7 len lanes)

/-- `ENCODE.8` (R158). -/
def execEncode8 (len : Len) (lanes : Lanes) (s : State) : Host.Outcome State Fault Refusal :=
  .next (s.evalEnc 8 len lanes)

/-- `ENCODE.9` (R159). -/
def execEncode9 (len : Len) (lanes : Lanes) (s : State) : Host.Outcome State Fault Refusal :=
  .next (s.evalEnc 9 len lanes)

/-- `ENCODE.10` (R160). -/
def execEncode10 (len : Len) (lanes : Lanes) (s : State) : Host.Outcome State Fault Refusal :=
  .next (s.evalEnc 10 len lanes)

/-- `ENCODE.11` (R161). -/
def execEncode11 (len : Len) (lanes : Lanes) (s : State) : Host.Outcome State Fault Refusal :=
  .next (s.evalEnc 11 len lanes)

/-- `ENCODE.12` (R162). -/
def execEncode12 (len : Len) (lanes : Lanes) (s : State) : Host.Outcome State Fault Refusal :=
  .next (s.evalEnc 12 len lanes)

/-- `ENCODE.13` (R163). -/
def execEncode13 (len : Len) (lanes : Lanes) (s : State) : Host.Outcome State Fault Refusal :=
  .next (s.evalEnc 13 len lanes)

/-- `ENCODE.14` (R164). -/
def execEncode14 (len : Len) (lanes : Lanes) (s : State) : Host.Outcome State Fault Refusal :=
  .next (s.evalEnc 14 len lanes)

/-- `ENCODE.15` (R165). -/
def execEncode15 (len : Len) (lanes : Lanes) (s : State) : Host.Outcome State Fault Refusal :=
  .next (s.evalEnc 15 len lanes)

end Sys2Proof.Machine
end

