-- ==== Sys2Proof/Machine/SelectorTable.lean ====
section
/-! DEFINITION. The LOOKUP forms (spec/40_selector_table.md R103, R110 to R125): the entry of the form's code on the selector
table unit's outputs. A lookup never fails (spec/60_exceptions.md R248). -/

namespace Sys2Proof.Machine

/-- `LOOKUP.0` (R110). -/
def execLookup0 (s : State) : Host.Outcome State Fault Refusal :=
  .next (s.evalRom 0)

/-- `LOOKUP.1` (R111). -/
def execLookup1 (s : State) : Host.Outcome State Fault Refusal :=
  .next (s.evalRom 1)

/-- `LOOKUP.2` (R112). -/
def execLookup2 (s : State) : Host.Outcome State Fault Refusal :=
  .next (s.evalRom 2)

/-- `LOOKUP.3` (R113). -/
def execLookup3 (s : State) : Host.Outcome State Fault Refusal :=
  .next (s.evalRom 3)

/-- `LOOKUP.4` (R114). -/
def execLookup4 (s : State) : Host.Outcome State Fault Refusal :=
  .next (s.evalRom 4)

/-- `LOOKUP.5` (R115). -/
def execLookup5 (s : State) : Host.Outcome State Fault Refusal :=
  .next (s.evalRom 5)

/-- `LOOKUP.6` (R116). -/
def execLookup6 (s : State) : Host.Outcome State Fault Refusal :=
  .next (s.evalRom 6)

/-- `LOOKUP.7` (R117). -/
def execLookup7 (s : State) : Host.Outcome State Fault Refusal :=
  .next (s.evalRom 7)

/-- `LOOKUP.8` (R118). -/
def execLookup8 (s : State) : Host.Outcome State Fault Refusal :=
  .next (s.evalRom 8)

/-- `LOOKUP.9` (R119). -/
def execLookup9 (s : State) : Host.Outcome State Fault Refusal :=
  .next (s.evalRom 9)

/-- `LOOKUP.10` (R120). -/
def execLookup10 (s : State) : Host.Outcome State Fault Refusal :=
  .next (s.evalRom 10)

/-- `LOOKUP.11` (R121). -/
def execLookup11 (s : State) : Host.Outcome State Fault Refusal :=
  .next (s.evalRom 11)

/-- `LOOKUP.12` (R122). -/
def execLookup12 (s : State) : Host.Outcome State Fault Refusal :=
  .next (s.evalRom 12)

/-- `LOOKUP.13` (R123). -/
def execLookup13 (s : State) : Host.Outcome State Fault Refusal :=
  .next (s.evalRom 13)

/-- `LOOKUP.14` (R124). -/
def execLookup14 (s : State) : Host.Outcome State Fault Refusal :=
  .next (s.evalRom 14)

/-- `LOOKUP.15` (R125). -/
def execLookup15 (s : State) : Host.Outcome State Fault Refusal :=
  .next (s.evalRom 15)

end Sys2Proof.Machine
end

