-- ==== Sys2Proof/Machine/Dispatch.lean ====
section
/-! DEFINITION. One arm per operation form, each one call of that form's meaning (spec/00_scope.md R2). -/

namespace Sys2Proof.Machine

def exec (i : Instr) (s : State) : Host.Outcome State Fault Refusal :=
  match i with
  | .lookup0 => Sys2Proof.Machine.execLookup0 s
  | .lookup1 => Sys2Proof.Machine.execLookup1 s
  | .lookup2 => Sys2Proof.Machine.execLookup2 s
  | .lookup3 => Sys2Proof.Machine.execLookup3 s
  | .lookup4 => Sys2Proof.Machine.execLookup4 s
  | .lookup5 => Sys2Proof.Machine.execLookup5 s
  | .lookup6 => Sys2Proof.Machine.execLookup6 s
  | .lookup7 => Sys2Proof.Machine.execLookup7 s
  | .lookup8 => Sys2Proof.Machine.execLookup8 s
  | .lookup9 => Sys2Proof.Machine.execLookup9 s
  | .lookup10 => Sys2Proof.Machine.execLookup10 s
  | .lookup11 => Sys2Proof.Machine.execLookup11 s
  | .lookup12 => Sys2Proof.Machine.execLookup12 s
  | .lookup13 => Sys2Proof.Machine.execLookup13 s
  | .lookup14 => Sys2Proof.Machine.execLookup14 s
  | .lookup15 => Sys2Proof.Machine.execLookup15 s
  | .encode0 len lanes => Sys2Proof.Machine.execEncode0 len lanes s
  | .encode1 len lanes => Sys2Proof.Machine.execEncode1 len lanes s
  | .encode2 len lanes => Sys2Proof.Machine.execEncode2 len lanes s
  | .encode3 len lanes => Sys2Proof.Machine.execEncode3 len lanes s
  | .encode4 len lanes => Sys2Proof.Machine.execEncode4 len lanes s
  | .encode5 len lanes => Sys2Proof.Machine.execEncode5 len lanes s
  | .encode6 len lanes => Sys2Proof.Machine.execEncode6 len lanes s
  | .encode7 len lanes => Sys2Proof.Machine.execEncode7 len lanes s
  | .encode8 len lanes => Sys2Proof.Machine.execEncode8 len lanes s
  | .encode9 len lanes => Sys2Proof.Machine.execEncode9 len lanes s
  | .encode10 len lanes => Sys2Proof.Machine.execEncode10 len lanes s
  | .encode11 len lanes => Sys2Proof.Machine.execEncode11 len lanes s
  | .encode12 len lanes => Sys2Proof.Machine.execEncode12 len lanes s
  | .encode13 len lanes => Sys2Proof.Machine.execEncode13 len lanes s
  | .encode14 len lanes => Sys2Proof.Machine.execEncode14 len lanes s
  | .encode15 len lanes => Sys2Proof.Machine.execEncode15 len lanes s
  | .decode0 payload => Sys2Proof.Machine.execDecode0 payload s
  | .decode1 payload => Sys2Proof.Machine.execDecode1 payload s
  | .decode2 payload => Sys2Proof.Machine.execDecode2 payload s
  | .decode3 payload => Sys2Proof.Machine.execDecode3 payload s
  | .decode4 payload => Sys2Proof.Machine.execDecode4 payload s
  | .decode5 payload => Sys2Proof.Machine.execDecode5 payload s
  | .decode6 payload => Sys2Proof.Machine.execDecode6 payload s
  | .decode7 payload => Sys2Proof.Machine.execDecode7 payload s
  | .decode8 payload => Sys2Proof.Machine.execDecode8 payload s
  | .decode9 payload => Sys2Proof.Machine.execDecode9 payload s
  | .decode10 payload => Sys2Proof.Machine.execDecode10 payload s
  | .decode11 payload => Sys2Proof.Machine.execDecode11 payload s
  | .decode12 payload => Sys2Proof.Machine.execDecode12 payload s
  | .decode13 payload => Sys2Proof.Machine.execDecode13 payload s
  | .decode14 payload => Sys2Proof.Machine.execDecode14 payload s
  | .decode15 payload => Sys2Proof.Machine.execDecode15 payload s

end Sys2Proof.Machine
end

