-- ==== Sys2Proof/Machine/Step.lean ====
section
/-! DEFINITION. One step: the caller's oldest waiting request is presented to its unit and evaluated
(spec/00_scope.md R17: "Step: one evaluation of one unit"). -/

namespace Sys2Proof.Machine

/-- One step. With no request waiting nothing is evaluated anew and every signal keeps its value, the outputs being
functions of the inputs (spec/10_state.md R23; notes/assumptions/6.md). -/
def step (s : State) : Host.Outcome State Fault Refusal :=
  match s.presented with
  | none => .next s
  | some (r, t) => exec (decodeRequest r) t

/-- The state in which the caller presents the request that the opcode-table word stands for before any other
(notes/assumptions/3.md, 7.md, 8.md); a word that `decodeTableWord` refuses is no request and changes nothing. -/
def State.withFetchWord (s : State) (nbits w : Nat) : State :=
  match patternOfTableWord nbits w with
  | none => s
  | some p => if p.WellFormed then s.presentFirst (requestOf p) else s

end Sys2Proof.Machine
end

