-- ==== Sys2Proof/Safety.lean ====
section
/-! DEFINITION. What a good state is, and what a user of the block may use of it. -/

namespace Sys2Proof.Machine

/-- "Whenever the inputs hold a value, the outputs hold the function's result for it" (spec/10_state.md R23), for each
of the three units. A hardware state always has this; a term of `State` may not. -/
abbrev State.Settled (s : State) : Prop :=
  s.romResp = romPorts s.romCode ∧ s.encResp = encPorts s.encSel s.encLen s.encVal ∧ s.decResp = decPorts s.decWord

/-- `enc_word` may be used: the status is `OK` or `INVALID_SELECTOR`, not a failure
(spec/70_reset_and_hazards.md R265 (e), spec/60_exceptions.md R233). -/
abbrev State.EncWordUsable (s : State) : Prop :=
  s.encResp.status = encOk ∨ s.encResp.status = encInvalidSelector

/-- The decoder's result sequence: the first `dec_len` lanes and no other (spec/70_reset_and_hazards.md R265 (f),
spec/42_decoder.md R179). -/
def State.decoded (s : State) : List Nat := laneValues s.decResp.len.toNat s.decResp.val

end Sys2Proof.Machine
end

