-- ==== Sys2Proof/Certificates/Slice0/Obligations.lean ====
section
/-! DEFINITION. The statements for the provers. Each says in its docstring which rule of spec/ it formalises. The
function level is stated over natural numbers and `encodeWord`, `decodeWord`; the port level through `exec`. -/

namespace Sys2Proof.Stated

open Sys2Proof.Machine

/-- A valid selector, s in 1..14 (spec/43_roundtrip_laws.md, opening). -/
abbrev Valid (s : Code) : Prop := 1 ≤ s.toNat ∧ s.toNat ≤ 14

/-- The slice `w[lo+n-1 : lo]` as a number: "floor(v / 2^lo) mod 2^(hi-lo)" (spec/00_scope.md R10). -/
def bits (w : Word) (lo n : Nat) : Nat := w.toNat / 2 ^ lo % 2 ^ n

/-- The sum of `values[i] · 2^(i·bitWidth)` over i < n (spec/41_encoder.md R141). -/
def weightedSum (bitWidth : Nat) (values : List Nat) : Nat :=
  ((List.range values.length).map fun i => values.getD i 0 * 2 ^ (i * bitWidth)).sum

/-- The caller's sequence `values` is what `enc_len` and the lanes carry: its length is `enc_len` and element i is on
lane i, for the elements that have a lane (spec/10_state.md R26). -/
abbrev Carries (len : Len) (lanes : Lanes) (values : List Nat) : Prop :=
  values.length = len.toNat ∧ ∀ i < min len.toNat 60, values[i]? = some (lane lanes i).toNat

/-- Form i answers the lookup of code c with these outputs and changes nothing else. -/
abbrev LookupGives (i : Instr) (c : Code) (valid : BitVec 1) (count width : Len) : Prop :=
  ∀ s : State, exec i s = .next { s with romCode := c, romResp := ⟨valid, count, width⟩ }

/-- The ENCODE form `mk` of selector `sel` with entry (count, bitWidth) completes with status 0 and a packed word
whenever the length and the values fit: lane i is in slot i, the other slots and the padding are 0, the low nibble is
the selector, and nothing but the encoder's ports changes. -/
abbrev EncodePacks (mk : Len → Lanes → Instr) (sel : Code) (count bitWidth : Nat) : Prop :=
  ∀ (len : Len) (lanes : Lanes) (s : State), len.toNat ≤ count →
    (∀ i < len.toNat, (lane lanes i).toNat < 2 ^ bitWidth) →
    ∃ w : Word,
      exec (mk len lanes) s =
        .next { s with encSel := sel, encLen := len, encVal := lanes, encResp := ⟨w, 0, 0⟩ } ∧
      bits w 0 4 = sel.toNat ∧
      (∀ i < count, bits w (4 + i * bitWidth) bitWidth = if i < len.toNat then (lane lanes i).toNat else 0) ∧
      w.toNat / 2 ^ (4 + count * bitWidth) = 0

/-- The ENCODE form `mk` reports too many values, whatever the lanes hold, and changes nothing but the encoder's
ports. -/
abbrev EncodeReportsTooMany (mk : Len → Lanes → Instr) (sel : Code) (count : Nat) : Prop :=
  ∀ (len : Len) (lanes : Lanes) (s : State), count < len.toNat →
    exec (mk len lanes) s =
      .next { s with encSel := sel, encLen := len, encVal := lanes, encResp := ⟨0, 2, len⟩ }

/-- The ENCODE form `mk` reports the lowest lane that does not fit, and changes nothing but the encoder's ports. -/
abbrev EncodeReportsMisfit (mk : Len → Lanes → Instr) (sel : Code) (count bitWidth : Nat) : Prop :=
  ∀ (len : Len) (lanes : Lanes) (s : State) (i : Nat), len.toNat ≤ count → i < len.toNat →
    2 ^ bitWidth ≤ (lane lanes i).toNat → (∀ j < i, (lane lanes j).toNat < 2 ^ bitWidth) →
    exec (mk len lanes) s =
      .next { s with encSel := sel, encLen := len, encVal := lanes, encResp := ⟨0, 3, BitVec.ofNat 6 i⟩ }

/-- The DECODE form `mk` of selector `sel` with entry (count, bitWidth) completes for every payload: lane i below the
count is slot i, every other lane is 0, status 0, `dec_pad_nz` as the padding bits say, and nothing but the decoder's
ports changes. -/
abbrev DecodeUnpacks (mk : Payload → Instr) (sel : Code) (count bitWidth : Nat) : Prop :=
  ∀ (payload : Payload) (s : State), ∃ (w : Word) (val : Lanes) (padNz : BitVec 1),
    exec (mk payload) s =
      .next { s with decWord := w, decResp := ⟨BitVec.ofNat 6 count, val, 0, padNz⟩ } ∧
    w.toNat = sel.toNat + 16 * payload.toNat ∧
    (∀ i < count, (lane val i).toNat = bits w (4 + i * bitWidth) bitWidth) ∧
    (∀ i, count ≤ i → i < 60 → lane val i = 0) ∧
    (padNz = 1 ↔ w.toNat / 2 ^ (4 + count * bitWidth) ≠ 0)

/-- What one operation returns: the outputs of its unit. -/
inductive Response where
  /-- The selector table unit's outputs. -/
  | rom (r : RomResponse)
  /-- The encoder's outputs. -/
  | enc (r : EncResponse)
  /-- The decoder's outputs. -/
  | dec (r : DecResponse)
  deriving DecidableEq, Repr

/-- The result of a request as a function of its inputs and the constant table alone: no state is an argument. -/
def answer : Request → Response
  | .romAddr c => .rom (romPorts c)
  | .encReq sel len lanes => .enc (encPorts sel len lanes)
  | .word w => .dec (decPorts w)

/-- What the unit that form i asks shows on its outputs. -/
def shown (i : Instr) (t : State) : Response :=
  match (encode i).port with
  | .romAddr => .rom t.romResp
  | .encReq => .enc t.encResp
  | .word => .dec t.decResp

/-- The decoder's answer to a word whose selector has no entry: length 0, every lane 0, status 1, `dec_pad_nz` 0. -/
abbrev emptyDecode : DecResponse := ⟨0, Vector.replicate 60 0, 1, 0⟩

/-- The table address a request puts on `rom_code`, if it is a LOOKUP request. -/
def romOf : Request → Option Code
  | .romAddr c => some c
  | .encReq _ _ _ => none
  | .word _ => none

/-- What a request puts on the encoder's inputs, if it is an ENCODE request. -/
def encOf : Request → Option (Code × Len × Lanes)
  | .romAddr _ => none
  | .encReq sel len lanes => some (sel, len, lanes)
  | .word _ => none

/-- The word a request puts on `dec_word`, if it is a DECODE request. -/
def decOf : Request → Option Word
  | .romAddr _ => none
  | .encReq _ _ _ => none
  | .word w => some w

/-- The run in which the caller presents exactly these requests, in this order. -/
def runOf (s : State) (rs : List Request) : Host.Outcome State Fault Refusal :=
  Host.Core.run core rs.length { s with requests := rs }

end Sys2Proof.Stated

open Sys2Proof Sys2Proof.Machine Sys2Proof.Stated

/-! ### The selector table -/

/-- R100, R101: the fourteen rows, and absent exactly for 0, 15 and any code above. -/
def Obligations.SelectorTableIsCanonical : Prop :=
  entryFor 1 = some ⟨60, 1⟩ ∧ entryFor 2 = some ⟨30, 2⟩ ∧ entryFor 3 = some ⟨20, 3⟩ ∧ entryFor 4 = some ⟨15, 4⟩ ∧
  entryFor 5 = some ⟨12, 5⟩ ∧ entryFor 6 = some ⟨10, 6⟩ ∧ entryFor 7 = some ⟨8, 7⟩ ∧ entryFor 8 = some ⟨7, 8⟩ ∧
  entryFor 9 = some ⟨6, 10⟩ ∧ entryFor 10 = some ⟨5, 12⟩ ∧ entryFor 11 = some ⟨4, 15⟩ ∧ entryFor 12 = some ⟨3, 20⟩ ∧
  entryFor 13 = some ⟨2, 30⟩ ∧ entryFor 14 = some ⟨1, 60⟩ ∧
  ∀ code : Nat, entryFor code = none ↔ code = 0 ∨ code = 15 ∨ 15 < code

/-- R102: the source's invariant and the five observations (a) to (e), which the spec marks as read off R101
("derived: from rule R101"). -/
def Obligations.SelectorTableInvariants : Prop :=
  (∀ code e, entryFor code = some e →
    1 ≤ code ∧ code ≤ 14 ∧ e.count * e.bitWidth ≤ 60 ∧
    (e.count * e.bitWidth = if code = 7 ∨ code = 8 then 56 else 60) ∧
    1 ≤ e.count ∧ e.count ≤ 60 ∧ 1 ≤ e.bitWidth ∧ e.bitWidth ≤ 60 ∧ e.count = 60 / e.bitWidth) ∧
  (∀ c d e f, entryFor c = some e → entryFor d = some f → c < d → e.bitWidth < f.bitWidth ∧ f.count < e.count) ∧
  ∀ w : Nat, (∃ code e, entryFor code = some e ∧ e.bitWidth = w) ↔
    w ∈ [1, 2, 3, 4, 5, 6, 7, 8, 10, 12, 15, 20, 30, 60]

/-- R24, the bit fields of a stored entry: `valid` [12], `count` [11:6], `width` [5:0], all 0 for "no entry". -/
def Obligations.RomEntryFields : Prop :=
  ∀ c : Code,
    (entryFor c.toNat = none → romEntry c = 0) ∧
    ∀ e, entryFor c.toNat = some e →
      (romEntry c).toNat = 2 ^ 12 + e.count * 2 ^ 6 + e.bitWidth ∧ e.count < 2 ^ 6 ∧ e.bitWidth < 2 ^ 6

/-- R103: what each of the sixteen LOOKUP forms gives, in every state. That nothing but the unit's own ports changes
is the model's own choice (notes/assumptions/5.md). -/
def Obligations.LookupFormsAnswerTable : Prop :=
  LookupGives .lookup0 0 0 0 0 ∧ LookupGives .lookup1 1 1 60 1 ∧ LookupGives .lookup2 2 1 30 2 ∧
  LookupGives .lookup3 3 1 20 3 ∧ LookupGives .lookup4 4 1 15 4 ∧ LookupGives .lookup5 5 1 12 5 ∧
  LookupGives .lookup6 6 1 10 6 ∧ LookupGives .lookup7 7 1 8 7 ∧ LookupGives .lookup8 8 1 7 8 ∧
  LookupGives .lookup9 9 1 6 10 ∧ LookupGives .lookup10 10 1 5 12 ∧ LookupGives .lookup11 11 1 4 15 ∧
  LookupGives .lookup12 12 1 3 20 ∧ LookupGives .lookup13 13 1 2 30 ∧ LookupGives .lookup14 14 1 1 60 ∧
  LookupGives .lookup15 15 0 0 0

/-! ### The encoder at the function level -/

/-- R132: under selectors 0 and 15 the result is the zero word, whatever the values, of any number and any size; and
the zero word's own selector has no entry. -/
def Obligations.EncodeInvalidSelectorIsZeroWord : Prop :=
  (∀ values : List Nat, encodeWord 0 values = .word 0 ∧ encodeWord 15 values = .word 0) ∧
  entryFor (bits 0 0 4) = none

/-- R133: the value at index i occupies bits [4 + i·bitWidth, 4 + (i+1)·bitWidth) of the word, and is element i of the
decoded output. -/
def Obligations.EncodePlacesValueInSlot : Prop :=
  ∀ (s : Code) (values : List Nat) (w : Word), Valid s → encodeWord s values = .word w →
    ∀ i < values.length,
      bits w (4 + i * widthOf s.toNat) (widthOf s.toNat) = values.getD i 0 ∧
      (decodeWord w)[i]? = some (values.getD i 0)

/-- R134: the slots past the values and the payload bits past the last slot are 0, and explicit zeros up to `count`
give the same word. -/
def Obligations.EncodeZeroFills : Prop :=
  ∀ (s : Code) (values : List Nat) (w : Word), Valid s → encodeWord s values = .word w →
    (∀ i, values.length ≤ i → i < countOf s.toNat → bits w (4 + i * widthOf s.toNat) (widthOf s.toNat) = 0) ∧
    w.toNat / 2 ^ (4 + countOf s.toNat * widthOf s.toNat) = 0 ∧
    encodeWord s (values ++ zeros (countOf s.toNat - values.length)) = .word w

/-- R135: the result is `selectorCode | (packedPayload << 4)`, its low nibble the selector code, its upper 60 bits the
packed payload. The last clause is R141's, which the spec marks as its own inference ("derived: from rule R133, rule
R135, rule R136 and rule R101"): the word is the sum of the values at their slots' weights. -/
def Obligations.EncodeComposesWord : Prop :=
  ∀ (s : Code) (values : List Nat) (w : Word), Valid s → encodeWord s values = .word w →
    w.toNat = s.toNat ||| (packedPayload (widthOf s.toNat) 0 values <<< 4) ∧
    bits w 0 4 = s.toNat ∧
    bits w 4 60 = packedPayload (widthOf s.toNat) 0 values ∧
    w.toNat = s.toNat + 16 * weightedSum (widthOf s.toNat) values

/-- R136 with R137, R138: a valid selector's encode produces a word exactly when the length and every value fit. -/
def Obligations.EncodeSucceedsExactlyWhenValuesFit : Prop :=
  ∀ (s : Code) (values : List Nat), Valid s →
    ((∃ w, encodeWord s values = .word w) ↔
      values.length ≤ countOf s.toNat ∧ ∀ v ∈ values, v < 2 ^ widthOf s.toNat)

/-- R138, R139: the selector masks both failures, the length is checked before any value, and the lowest offending
index is reported. -/
def Obligations.EncodeChecksInOrder : Prop :=
  (∀ (s : Code) (values : List Nat), s = 0 ∨ s = 15 → encodeWord s values = .word 0) ∧
  (∀ (s : Code) (values : List Nat), Valid s → countOf s.toNat < values.length →
    encodeWord s values = .tooManyValues values.length) ∧
  ∀ (s : Code) (values : List Nat) (i : Nat), Valid s → values.length ≤ countOf s.toNat → i < values.length →
    2 ^ widthOf s.toNat ≤ values.getD i 0 → (∀ j < i, values.getD j 0 < 2 ^ widthOf s.toNat) →
    encodeWord s values = .valueOutOfRange i

/-- R144 (a) to (g): the corner cases common to every valid selector. The spec marks them as its own inference
("derived: from rule R130"); its (h) is about wires, not values. -/
def Obligations.EncodeCornerCases : Prop :=
  ∀ s : Code, Valid s →
    encodeWord s [] = .word (s.setWidth 64) ∧
    (∀ k ≤ countOf s.toNat, encodeWord s (zeros k) = .word (s.setWidth 64)) ∧
    (∀ values : List Nat,
      encodeWord s values = encodeWord s (values ++ zeros (countOf s.toNat - values.length))) ∧
    (∃ w, encodeWord s (List.replicate (countOf s.toNat) (2 ^ widthOf s.toNat - 1)) = .word w ∧
      w.toNat = (if s = 7 ∨ s = 8 then 0x0FFFFFFFFFFFFFF0 else 0xFFFFFFFFFFFFFFF0) + s.toNat) ∧
    (∀ values : List Nat,
      (values.length = countOf s.toNat → (∀ v ∈ values, v < 2 ^ widthOf s.toNat) →
        ∃ w, encodeWord s values = .word w) ∧
      (values.length = countOf s.toNat + 1 → encodeWord s values = .tooManyValues (countOf s.toNat + 1))) ∧
    (∃ w, encodeWord s [2 ^ widthOf s.toNat - 1] = .word w) ∧
    encodeWord s [2 ^ widthOf s.toNat] = .valueOutOfRange 0 ∧
    ∀ values : List Nat, encodeWord s values ≠ .word 0

/-! ### Words and the decoder at the function level -/

/-- R60: `selector = word & 0xF`, `payload = word >> 4`, `word = selector | (payload << 4)`. -/
def Obligations.WordIsSelectorAndPayload : Prop :=
  (∀ w : Word, (selectorOf w).toNat = w.toNat &&& 0xF ∧ (payloadOf w).toNat = w.toNat >>> 4 ∧
    wordOf (payloadOf w) (selectorOf w) = w) ∧
  ∀ (p : Payload) (s : Code), (wordOf p s).toNat = s.toNat ||| (p.toNat <<< 4) ∧
    selectorOf (wordOf p s) = s ∧ payloadOf (wordOf p s) = p

/-- R173: slot extraction by shift and mask, which is the slice of the word. -/
def Obligations.DecodeExtractsSlots : Prop :=
  ∀ (w : Word) (e : Entry), entryFor (bits w 0 4) = some e → ∀ i < e.count,
    (decodeWord w)[i]? = some (((w.toNat >>> 4) >>> (i * e.bitWidth)) &&& ((1 <<< e.bitWidth) - 1)) ∧
    (decodeWord w)[i]? = some (bits w (4 + i * e.bitWidth) e.bitWidth)

/-- R172, R174: exactly `count` values for a valid nibble, none for 0 and 15, whatever the payload. -/
def Obligations.DecodeLengthFromSelectorOnly : Prop :=
  ∀ w : Word,
    (∀ e, entryFor (bits w 0 4) = some e → (decodeWord w).length = e.count) ∧
    (bits w 0 4 = 0 ∨ bits w 0 4 = 15 → decodeWord w = [])

/-- R181, which the spec marks as its own inference ("derived: from rule R173 and rule R101"): every decoded value is
below `2^bitWidth` and below `2^60`. -/
def Obligations.DecodedValuesFit : Prop :=
  ∀ w : Word, ∀ v ∈ decodeWord w, v < 2 ^ widthOf (bits w 0 4) ∧ v < 2 ^ 60

/-- R176, which the spec marks as its own inference ("derived: from rule R173"): with a valid selector only bits [3 +
count·bitWidth : 0] are read, with an invalid one only the nibble; under selectors 7 and 8 bits [63:60] do not matter.
-/
def Obligations.DecodeReadsNoOtherBits : Prop :=
  (∀ (w w' : Word) (e : Entry), entryFor (bits w 0 4) = some e →
    bits w 0 (4 + e.count * e.bitWidth) = bits w' 0 (4 + e.count * e.bitWidth) → decodeWord w = decodeWord w') ∧
  (∀ w w' : Word, entryFor (bits w 0 4) = none → bits w 0 4 = bits w' 0 4 → decodeWord w = decodeWord w') ∧
  ∀ w : Word, bits w 0 4 = 7 ∨ bits w 0 4 = 8 → decodeWord w = decodeWord (w &&& 0x0FFFFFFFFFFFFFFF)

/-! ### The round trip and the derived laws -/

/-- R210: the round-trip contract. -/
def Obligations.RoundTrip : Prop :=
  ∀ (s : Code) (values : List Nat), Valid s → values.length ≤ countOf s.toNat →
    (∀ v ∈ values, v < 2 ^ widthOf s.toNat) →
    ∃ w, encodeWord s values = .word w ∧ decodeWord w = pad values (countOf s.toNat)

/-- R211, which the spec marks as its own inference ("derived: from rule R130, rule R170 and rule R181"): the reverse
round trip on well-formed words; `decode` is injective on those of one selector, and `encode`
maps the full-length sequences in range one to one onto them. -/
def Obligations.ReverseRoundTrip : Prop :=
  (∀ w : Word, wellFormedWord w = true → encodeWord (selectorOf w) (decodeWord w) = .word w) ∧
  (∀ w w' : Word, wellFormedWord w = true → wellFormedWord w' = true → selectorOf w = selectorOf w' →
    decodeWord w = decodeWord w' → w = w') ∧
  (∀ (s : Code) (values : List Nat), Valid s → values.length = countOf s.toNat →
    (∀ v ∈ values, v < 2 ^ widthOf s.toNat) →
    ∃ w, encodeWord s values = .word w ∧ wellFormedWord w = true ∧ selectorOf w = s ∧ decodeWord w = values) ∧
  ∀ w : Word, wellFormedWord w = true →
    (decodeWord w).length = countOf (selectorOf w).toNat ∧
    ∀ v ∈ decodeWord w, v < 2 ^ widthOf (selectorOf w).toNat

/-- R212, which the spec marks as its own inference ("derived: from rule R134"): trailing zeros do not show. -/
def Obligations.TrailingZerosDoNotShow : Prop :=
  ∀ (s : Code) (values : List Nat) (k : Nat), Valid s → values.length ≤ k → k ≤ countOf s.toNat →
    (∀ v ∈ values, v < 2 ^ widthOf s.toNat) → encodeWord s values = encodeWord s (pad values k)

/-- R213, which the spec marks as its own inference ("derived: from rule R130, rule R137 and rule R138"): no silent
truncation. Whatever the values, a word the encoder returns decodes to the padded input; and the
inputs outside the precondition of R210 are exactly those for which it fails. -/
def Obligations.NoSilentTruncation : Prop :=
  ∀ (s : Code) (values : List Nat), Valid s →
    (∀ w, encodeWord s values = .word w → decodeWord w = pad values (countOf s.toNat)) ∧
    (¬ (values.length ≤ countOf s.toNat ∧ ∀ v ∈ values, v < 2 ^ widthOf s.toNat) ↔
      (∃ n, encodeWord s values = .tooManyValues n) ∨ ∃ i, encodeWord s values = .valueOutOfRange i)

/-- R214, which the spec marks as its own inference ("derived: from rule R176 and rule R134"): decode then encode
clears the padding bits, and gives the word itself exactly when it is well-formed. -/
def Obligations.DecodeThenEncodeCanonicalises : Prop :=
  ∀ w : Word, selectorOf w = 7 ∨ selectorOf w = 8 →
    encodeWord (selectorOf w) (decodeWord w) = .word (w &&& 0x0FFFFFFFFFFFFFFF) ∧
    (encodeWord (selectorOf w) (decodeWord w) = .word w ↔ wellFormedWord w = true)

/-- R215, which the spec marks as its own inference ("derived: from rule R132 and rule R172"): invalid selectors
through both units. -/
def Obligations.InvalidSelectorsThroughBothUnits : Prop :=
  (∀ (s : Code) (values : List Nat), s = 0 ∨ s = 15 →
    ∃ w, encodeWord s values = .word w ∧ decodeWord w = [] ∧ decodeWord 0 = []) ∧
  ∀ w : Word, selectorOf w = 0 ∨ selectorOf w = 15 →
    encodeWord (selectorOf w) (decodeWord w) = encodeWord (selectorOf w) [] ∧
    encodeWord (selectorOf w) (decodeWord w) = .word 0 ∧
    (encodeWord (selectorOf w) (decodeWord w) = .word w ↔ w = 0)

/-- R216, which the spec marks as its own inference ("derived: from rule R132, rule R135 and rule R142"): the zero
word comes from an invalid selector alone at the function level; at the ports also from a failure, and `enc_status`
tells the cases apart; it always decodes to the empty sequence. -/
def Obligations.ZeroWordMeansInvalidOrFailure : Prop :=
  (∀ (s : Code) (values : List Nat), encodeWord s values = .word 0 ↔ s = 0 ∨ s = 15) ∧
  (∀ (sel : Code) (len : Len) (lanes : Lanes),
    ((encPorts sel len lanes).word = 0 ↔ (encPorts sel len lanes).status ≠ 0) ∧
    ((encPorts sel len lanes).status = 1 ↔ sel = 0 ∨ sel = 15)) ∧
  decodeWord 0 = []

/-- R217, which the spec marks as its own inference ("derived: from rule R174"): the result length is `count(s)`
whatever the number of values was. -/
def Obligations.RoundTripLength : Prop :=
  ∀ (s : Code) (values : List Nat) (w : Word), Valid s → encodeWord s values = .word w →
    (decodeWord w).length = countOf s.toNat

/-- R218, which the spec marks as its own inference ("derived: from rule R135, rule R210"): when two encodes agree. -/
def Obligations.EncodesAgreeExactly : Prop :=
  ∀ (s s' : Code) (values values' : List Nat), Valid s → Valid s' →
    values.length ≤ countOf s.toNat → (∀ v ∈ values, v < 2 ^ widthOf s.toNat) →
    values'.length ≤ countOf s'.toNat → (∀ v ∈ values', v < 2 ^ widthOf s'.toNat) →
    (encodeWord s values = encodeWord s' values' ↔
      s = s' ∧ pad values (countOf s.toNat) = pad values' (countOf s'.toNat))

/-! ### The port level -/

/-- R14 with R142: for every input the encoder's ports show the function level's outcome for the sequence they
carry. -/
def Obligations.PortEncoderRefinesEncode : Prop :=
  ∀ (sel : Code) (len : Len) (lanes : Lanes) (values : List Nat), Carries len lanes values →
    encPorts sel len lanes = encResponseOf sel (encodeWord sel values)

/-- R14 with R178, R179: for every word the decoder's ports carry the function level's sequence, and 0 past it. -/
def Obligations.PortDecoderRefinesDecode : Prop :=
  ∀ w : Word,
    (decPorts w).len.toNat = (decodeWord w).length ∧
    laneValues (decPorts w).len.toNat (decPorts w).val = decodeWord w ∧
    (∀ i, (decodeWord w).length ≤ i → i < 60 → lane (decPorts w).val i = 0) ∧
    ((decPorts w).status = 0 ↔ (entryFor (bits w 0 4)).isSome)

/-- R143, which the spec marks as its own inference ("derived: from rule R132 and rule R134"): lanes at or past the
length affect no output, and their slots are 0; under an invalid selector the length and every lane are ignored. -/
def Obligations.IgnoredLanesDoNotShow : Prop :=
  (∀ (sel : Code) (len : Len) (lanes lanes' : Lanes), (∀ i < len.toNat, lane lanes i = lane lanes' i) →
    encPorts sel len lanes = encPorts sel len lanes') ∧
  (∀ (sel : Code) (len : Len) (lanes : Lanes) (e : Entry), entryFor sel.toNat = some e →
    ∀ i, len.toNat ≤ i → i < e.count → bits (encPorts sel len lanes).word (4 + i * e.bitWidth) e.bitWidth = 0) ∧
  ∀ (sel : Code) (len len' : Len) (lanes lanes' : Lanes), sel = 0 ∨ sel = 15 →
    encPorts sel len lanes = encPorts sel len' lanes'

/-- R237: what `enc_info` holds beside each status. -/
def Obligations.EncodeInfoRecordsFailure : Prop :=
  ∀ (sel : Code) (len : Len) (lanes : Lanes),
    ((encPorts sel len lanes).status = 0 ∨ (encPorts sel len lanes).status = 1 → (encPorts sel len lanes).info = 0) ∧
    ((encPorts sel len lanes).status = 2 →
      (encPorts sel len lanes).info = len ∧ 2 ≤ (encPorts sel len lanes).info.toNat) ∧
    ((encPorts sel len lanes).status = 3 →
      (encPorts sel len lanes).info.toNat < len.toNat ∧ (encPorts sel len lanes).info.toNat ≤ 59 ∧
      2 ^ widthOf sel.toNat ≤ (lane lanes (encPorts sel len lanes).info.toNat).toNat ∧
      ∀ j < (encPorts sel len lanes).info.toNat, (lane lanes j).toNat < 2 ^ widthOf sel.toNat)

/-- R180: `dec_pad_nz` is 1 exactly under selectors 7 and 8 with a bit of [63:60] set, and changes no other output. -/
def Obligations.PadFlagExactly : Prop :=
  ∀ w : Word,
    ((decPorts w).padNz = 1 ↔ (bits w 0 4 = 7 ∨ bits w 0 4 = 8) ∧ bits w 60 4 ≠ 0) ∧
    (bits w 0 4 = 7 ∨ bits w 0 4 = 8 →
      (decPorts w).len = (decPorts (w &&& 0x0FFFFFFFFFFFFFFF)).len ∧
      (decPorts w).val = (decPorts (w &&& 0x0FFFFFFFFFFFFFFF)).val ∧
      (decPorts w).status = (decPorts (w &&& 0x0FFFFFFFFFFFFFFF)).status ∧
      (decPorts (w &&& 0x0FFFFFFFFFFFFFFF)).padNz = 0)

/-- R145, which the spec marks as its own inference ("derived: from rule R134 and rule R135"): every `OK` result is
well-formed, at both levels. -/
def Obligations.OkResultIsWellFormed : Prop :=
  (∀ (sel : Code) (len : Len) (lanes : Lanes), (encPorts sel len lanes).status = 0 →
    wellFormedWord (encPorts sel len lanes).word = true) ∧
  ∀ (s : Code) (values : List Nat) (w : Word), Valid s → encodeWord s values = .word w → wellFormedWord w = true

/-- R142, the OK branch, for ENCODE.1 to ENCODE.14 (R151 to R164): the form completes with the packed word. That
nothing but the unit's own ports changes is the model's own choice (notes/assumptions/5.md). -/
def Obligations.EncodeFormsPackFittingLanes : Prop :=
  EncodePacks .encode1 1 60 1 ∧ EncodePacks .encode2 2 30 2 ∧ EncodePacks .encode3 3 20 3 ∧
  EncodePacks .encode4 4 15 4 ∧ EncodePacks .encode5 5 12 5 ∧ EncodePacks .encode6 6 10 6 ∧
  EncodePacks .encode7 7 8 7 ∧ EncodePacks .encode8 8 7 8 ∧ EncodePacks .encode9 9 6 10 ∧
  EncodePacks .encode10 10 5 12 ∧ EncodePacks .encode11 11 4 15 ∧ EncodePacks .encode12 12 3 20 ∧
  EncodePacks .encode13 13 2 30 ∧ EncodePacks .encode14 14 1 60

/-- R232: TooManyValues at the ports and at the function level, raised by ENCODE.1 to ENCODE.14 only. That nothing but
the unit's own ports changes is the model's own choice (notes/assumptions/5.md). -/
def Obligations.EncodeFormsReportTooManyValues : Prop :=
  (EncodeReportsTooMany .encode1 1 60 ∧ EncodeReportsTooMany .encode2 2 30 ∧ EncodeReportsTooMany .encode3 3 20 ∧
   EncodeReportsTooMany .encode4 4 15 ∧ EncodeReportsTooMany .encode5 5 12 ∧ EncodeReportsTooMany .encode6 6 10 ∧
   EncodeReportsTooMany .encode7 7 8 ∧ EncodeReportsTooMany .encode8 8 7 ∧ EncodeReportsTooMany .encode9 9 6 ∧
   EncodeReportsTooMany .encode10 10 5 ∧ EncodeReportsTooMany .encode11 11 4 ∧ EncodeReportsTooMany .encode12 12 3 ∧
   EncodeReportsTooMany .encode13 13 2 ∧ EncodeReportsTooMany .encode14 14 1) ∧
  (∀ (sel : Code) (len : Len) (lanes : Lanes),
    (encPorts sel len lanes).status = 2 ↔ Valid sel ∧ countOf sel.toNat < len.toNat) ∧
  ∀ (s : Code) (values : List Nat) (n : Nat),
    encodeWord s values = .tooManyValues n ↔ Valid s ∧ countOf s.toNat < values.length ∧ n = values.length

/-- R231: ValueOutOfRange at the ports and at the function level, raised by ENCODE.1 to ENCODE.14 only. That nothing
but the unit's own ports changes is the model's own choice (notes/assumptions/5.md). -/
def Obligations.EncodeFormsReportValueOutOfRange : Prop :=
  (EncodeReportsMisfit .encode1 1 60 1 ∧ EncodeReportsMisfit .encode2 2 30 2 ∧ EncodeReportsMisfit .encode3 3 20 3 ∧
   EncodeReportsMisfit .encode4 4 15 4 ∧ EncodeReportsMisfit .encode5 5 12 5 ∧ EncodeReportsMisfit .encode6 6 10 6 ∧
   EncodeReportsMisfit .encode7 7 8 7 ∧ EncodeReportsMisfit .encode8 8 7 8 ∧ EncodeReportsMisfit .encode9 9 6 10 ∧
   EncodeReportsMisfit .encode10 10 5 12 ∧ EncodeReportsMisfit .encode11 11 4 15 ∧
   EncodeReportsMisfit .encode12 12 3 20 ∧ EncodeReportsMisfit .encode13 13 2 30 ∧
   EncodeReportsMisfit .encode14 14 1 60) ∧
  (∀ (sel : Code) (len : Len) (lanes : Lanes),
    (encPorts sel len lanes).status = 3 ↔ Valid sel ∧ len.toNat ≤ countOf sel.toNat ∧
      ∃ i < len.toNat, 2 ^ widthOf sel.toNat ≤ (lane lanes i).toNat) ∧
  ∀ (s : Code) (values : List Nat) (i : Nat),
    encodeWord s values = .valueOutOfRange i ↔ Valid s ∧ values.length ≤ countOf s.toNat ∧ i < values.length ∧ i ≤ 59 ∧
      2 ^ widthOf s.toNat ≤ values.getD i 0 ∧ ∀ j < i, values.getD j 0 < 2 ^ widthOf s.toNat

/-- R150, R165: ENCODE.0 and ENCODE.15 complete with the zero word and status 1, whatever the length and the lanes.
That nothing but the unit's own ports changes is the model's own choice (notes/assumptions/5.md). -/
def Obligations.ReservedEncodeFormsGiveZeroWord : Prop :=
  ∀ (len : Len) (lanes : Lanes) (s : State),
    exec (.encode0 len lanes) s =
      .next { s with encSel := 0, encLen := len, encVal := lanes, encResp := ⟨0, 1, 0⟩ } ∧
    exec (.encode15 len lanes) s =
      .next { s with encSel := 15, encLen := len, encVal := lanes, encResp := ⟨0, 1, 0⟩ }

/-- R178 to R180 for DECODE.1 to DECODE.14 (R191 to R204): the form completes with the unpacked slots. That nothing
but the unit's own ports changes is the model's own choice (notes/assumptions/5.md). -/
def Obligations.DecodeFormsUnpackSlots : Prop :=
  DecodeUnpacks .decode1 1 60 1 ∧ DecodeUnpacks .decode2 2 30 2 ∧ DecodeUnpacks .decode3 3 20 3 ∧
  DecodeUnpacks .decode4 4 15 4 ∧ DecodeUnpacks .decode5 5 12 5 ∧ DecodeUnpacks .decode6 6 10 6 ∧
  DecodeUnpacks .decode7 7 8 7 ∧ DecodeUnpacks .decode8 8 7 8 ∧ DecodeUnpacks .decode9 9 6 10 ∧
  DecodeUnpacks .decode10 10 5 12 ∧ DecodeUnpacks .decode11 11 4 15 ∧ DecodeUnpacks .decode12 12 3 20 ∧
  DecodeUnpacks .decode13 13 2 30 ∧ DecodeUnpacks .decode14 14 1 60

/-- R190, R205: DECODE.0 and DECODE.15 complete with the empty sequence and status 1, whatever the payload. That
nothing but the unit's own ports changes is the model's own choice (notes/assumptions/5.md). -/
def Obligations.ReservedDecodeFormsGiveEmpty : Prop :=
  ∀ (payload : Payload) (s : State),
    (∃ w : Word, w.toNat = 16 * payload.toNat ∧
      exec (.decode0 payload) s = .next { s with decWord := w, decResp := emptyDecode }) ∧
    ∃ w : Word, w.toNat = 15 + 16 * payload.toNat ∧
      exec (.decode15 payload) s = .next { s with decWord := w, decResp := emptyDecode }

/-- R219, which the spec marks as its own inference ("derived: from rule R142, rule R178 and rule R210"): `enc_word`
wired to `dec_word`. That the encoder's ports keep their values while the decoder is asked is the model's own choice
(notes/assumptions/5.md). -/
def Obligations.PortRoundTrip : Prop :=
  ∀ (sel : Code) (len : Len) (lanes : Lanes) (s : State), ∃ t u : State,
    exec (encodeForm sel len lanes) s = .next t ∧
    exec (decodeRequest (.word t.encResp.word)) t = .next u ∧
    (u.encSel, u.encLen, u.encVal, u.encResp) = (t.encSel, t.encLen, t.encVal, t.encResp) ∧
    (t.encResp.status = 0 →
      u.decResp.status = 0 ∧ u.decResp.padNz = 0 ∧ u.decResp.len.toNat = countOf sel.toNat ∧
      (∀ i < len.toNat, lane u.decResp.val i = lane lanes i) ∧
      ∀ i, len.toNat ≤ i → i ≤ 59 → lane u.decResp.val i = 0) ∧
    (t.encResp.status = 1 ∨ t.encResp.status = 2 ∨ t.encResp.status = 3 →
      t.encResp.word = 0 ∧ u.decResp.status = 1 ∧ u.decResp.len = 0 ∧ ∀ i ≤ 59, lane u.decResp.val i = 0)

/-! ### The machine -/

/-- R17: a step is one evaluation, of the oldest waiting request; with none waiting nothing changes. That the caller's
requests wait in a list is the model's own choice (notes/assumptions/3.md, 6.md). -/
def Obligations.StepRunsPresentedRequest : Prop :=
  (∀ (s : State) (r : Request) (rest : List Request), s.requests = r :: rest →
    step s = exec (decodeRequest r) { s with requests := rest }) ∧
  (∀ (s : State) (p : Pattern) (i : Instr), decode p = .ok i →
    step { s with requests := requestOf p :: s.requests } = exec i s) ∧
  ∀ s : State, s.requests = [] → step s = .next s

/-- A word of the opcode table, presented, is the instruction the next step runs (the reading of a table word is the
model's own choice: notes/assumptions/3.md, 7.md, 8.md). -/
def Obligations.FetchWordRunsDecodedForm : Prop :=
  ∀ (s : State) (nbits w : Nat) (i : Instr), decodeTableWord nbits w = some i →
    step (s.withFetchWord nbits w) = exec i s

/-- R266, R17, R36: an evaluation always completes; no operation faults, is refused or hangs. What a step is when
requests wait, and when none does, is the model's (notes/assumptions/3.md, 6.md). -/
def Obligations.EveryStepCompletes : Prop :=
  (∀ (i : Instr) (s : State), ∃ t, exec i s = .next t) ∧ ∀ s : State, ∃ t, step s = .next t

/-- What an operation leaves on its own unit's ports depends on its own inputs only, not on the state before (R20,
R35, R48, R269). That the waiting requests stay, and that the ports of the other two units stay as they were, is the
model's own choice: the requests are the model's field (notes/assumptions/3.md), and the caller holds its inputs
(notes/assumptions/5.md). -/
def Obligations.OperationsTouchTheirUnitOnly : Prop :=
  ∀ (i : Instr) (s s' t t' : State), exec i s = .next t → exec i s' = .next t' →
    t.requests = s.requests ∧
    (if (encode i).port = .romAddr then (t.romCode, t.romResp) = (t'.romCode, t'.romResp)
      else (t.romCode, t.romResp) = (s.romCode, s.romResp)) ∧
    (if (encode i).port = .encReq then
        (t.encSel, t.encLen, t.encVal, t.encResp) = (t'.encSel, t'.encLen, t'.encVal, t'.encResp)
      else (t.encSel, t.encLen, t.encVal, t.encResp) = (s.encSel, s.encLen, s.encVal, s.encResp)) ∧
    (if (encode i).port = .word then (t.decWord, t.decResp) = (t'.decWord, t'.decResp)
      else (t.decWord, t.decResp) = (s.decWord, s.decResp))

/-- R20: the block's own state has one value; an operation returns what its inputs and the table give, in every state;
and no operation changes what a later operation returns. That `State` holds the signals of the ports beside the
block's own state, where the result is read here, is the model's own choice (notes/assumptions/1.md). -/
def Obligations.BlockKeepsNoState : Prop :=
  (∀ b b' : BlockState, b = b') ∧
  (∀ (i : Instr) (s : State), ∃ t : State, exec i s = .next t ∧ t.block = s.block ∧
    shown i t = answer (encodeRequest i)) ∧
  ∀ (i j : Instr) (s t u v : State), exec i s = .next t → exec j t = .next u → exec j s = .next v →
    shown j u = shown j v

/-- R34, R261: at power-up every output is the function of the inputs. (What the inputs hold then is the model's own
choice, notes/assumptions/2.md; the statement does not name it.) -/
def Obligations.ResetOutputsFollowInputs : Prop := State.reset.Settled

/-- R23: the outputs are the functions of the inputs at all times: every step keeps it, from every state that has it.
What a step is when requests wait, and when none does, is the model's (notes/assumptions/3.md, 6.md). -/
def Obligations.StepKeepsOutputsSettled : Prop :=
  ∀ s t : State, s.Settled → step s = .next t → t.Settled

/-- R20, R48 over whole runs: a result depends on that operation's inputs alone, whatever other operations run. That
the requests wait in a list is the model's own choice (notes/assumptions/3.md), and so is that a port keeps its value
until its unit is next asked (notes/assumptions/5.md), by which each unit's ports show its own last request and the
unit's function of it after the run, and the ports of a unit that was not asked are as before. -/
def Obligations.RunShowsLastRequestOfEachUnit : Prop :=
  ∀ (s : State) (rs : List Request), ∃ t : State, runOf s rs = .next t ∧ t.requests = [] ∧
    (match (rs.filterMap romOf).getLast? with
      | none => t.romCode = s.romCode ∧ t.romResp = s.romResp
      | some c => t.romCode = c ∧ t.romResp = romPorts c) ∧
    (match (rs.filterMap encOf).getLast? with
      | none => t.encSel = s.encSel ∧ t.encLen = s.encLen ∧ t.encVal = s.encVal ∧ t.encResp = s.encResp
      | some (sel, len, lanes) =>
        t.encSel = sel ∧ t.encLen = len ∧ t.encVal = lanes ∧ t.encResp = encPorts sel len lanes) ∧
    (match (rs.filterMap decOf).getLast? with
      | none => t.decWord = s.decWord ∧ t.decResp = s.decResp
      | some w => t.decWord = w ∧ t.decResp = decPorts w)

/-- R48: every interleaving of the three units' operations is indistinguishable from every other: two sequences of
requests with the same requests to each unit, in the same order, end in the same state. The list of requests
(notes/assumptions/3.md), and that ports keep their values between requests (notes/assumptions/5.md), are the model's
own choice. -/
def Obligations.InterleavingsAreIndistinguishable : Prop :=
  ∀ (s : State) (rs rs' : List Request), rs.filterMap romOf = rs'.filterMap romOf →
    rs.filterMap encOf = rs'.filterMap encOf → rs.filterMap decOf = rs'.filterMap decOf →
    runOf s rs = runOf s rs'

/-! ### Requests and their bits -/

/-- Decode and encode agree, all 48 forms, every operand: the decoder reads an instruction's own pattern as that
instruction (R63 to R65, R69; the layout of an ENCODE request as one number is the model's own choice,
notes/assumptions/8.md). -/
def Obligations.DecodeOfEncodeIsInstruction : Prop := ∀ i : Instr, decode (encode i) = .ok i

/-- The other direction: every pattern that stays inside its port is the pattern of the instruction it decodes to, and
every other pattern is rejected by name. That every value of the signals is a request is R36, and that the ports cannot
carry a wider code is R73; the layout of an ENCODE request as one number, and that a number too wide for its port is
rejected by name, are the model's own choice (notes/assumptions/8.md). -/
def Obligations.EncodeOfDecodeIsPattern : Prop :=
  ∀ p : Pattern,
    (p.bits < 2 ^ p.port.width → ∃ i, decode p = .ok i ∧ encode i = p) ∧
    (2 ^ p.port.width ≤ p.bits → decode p = .error (.bitsOutsidePort p.port))

/-- A few patterns decode to the forms they stand for. The `rom_code` and `dec_word` patterns are written out from the
spec's encodings (R63, R65, R69); the bit order across `enc_sel`, `enc_len` and `enc_val` of the `ENCODE.10` pattern,
and that a five-bit code is rejected by name, are the model's own choice (notes/assumptions/8.md). -/
def Obligations.WrittenOutRequestsDecode : Prop :=
  decode ⟨.romAddr, 0b0000⟩ = .ok .lookup0 ∧ decode ⟨.romAddr, 0b1001⟩ = .ok .lookup9 ∧
  decode ⟨.romAddr, 0b1111⟩ = .ok .lookup15 ∧
  decode ⟨.word, 0x000030000200001C⟩ = .ok (.decode12 0x000030000200001) ∧
  decode ⟨.word, 0xFFFFFFFFFFFFFFF7⟩ = .ok (.decode7 0xFFFFFFFFFFFFFFF) ∧
  decode ⟨.encReq, 0b000000_1010⟩ = .ok (.encode10 0 (Vector.replicate 60 0)) ∧
  decode ⟨.romAddr, 0b10000⟩ = .error (.bitsOutsidePort .romAddr)

/-- The source's own worked examples, S1 to S6 of spec/95_test_vectors.md (R220). -/
def Obligations.SourceExamplesHold : Prop :=
  encodeWord 0 [] = .word 0 ∧ encodeWord 15 [] = .word 0 ∧ decodeWord 0 = [] ∧
  encodeWord 14 [1] = .word 0x000000000000001E ∧ decodeWord 0x1E = [1] ∧
  encodeWord 12 [1, 2, 3] = .word 0x000030000200001C ∧ decodeWord 0x000030000200001C = [1, 2, 3] ∧
  encodeWord 1 (List.replicate 60 1) = .word 0xFFFFFFFFFFFFFFF1 ∧
  decodeWord 0xFFFFFFFFFFFFFFF1 = List.replicate 60 1 ∧
  encodeWord 8 (List.replicate 7 1) = .word 0x0010101010101018 ∧
  decodeWord 0x0010101010101018 = List.replicate 7 1
end

