-- ==== Sys2Proof/Laws/Table.lean ====
section
/-! SUPPORT. What the selector table can answer, the lanes of a port, and the fields of a word. -/

namespace Sys2Proof.Machine

/-- All fourteen entries: a code with an entry is one of the rows (spec/40_selector_table.md R101). -/
theorem entryFor_rows {code : Nat} {e : Entry} (h : entryFor code = some e) :
    (code, e) ∈ canonicalTable := by
  unfold entryFor at h
  split at h
  · rename_i hc
    obtain ⟨h1, h2⟩ := hc
    interval_cases code <;> simp_all [canonicalTable, List.lookup]
  · cases h

/-- The numeric facts about an entry that the packing needs: read off the rows of the table. -/
theorem entryFor_bounds {code : Nat} {e : Entry} (h : entryFor code = some e) :
    1 ≤ code ∧ code ≤ 14 ∧ 1 ≤ e.count ∧ e.count ≤ 60 ∧ 1 ≤ e.bitWidth ∧ e.bitWidth ≤ 60 ∧
      e.count * e.bitWidth ≤ 60 := by
  have rows : ∀ row ∈ canonicalTable, 1 ≤ row.1 ∧ row.1 ≤ 14 ∧ 1 ≤ row.2.count ∧ row.2.count ≤ 60 ∧
      1 ≤ row.2.bitWidth ∧ row.2.bitWidth ≤ 60 ∧ row.2.count * row.2.bitWidth ≤ 60 := by decide
  exact rows _ (entryFor_rows h)

/-- A code in 1..14 has an entry. -/
theorem entryFor_valid {code : Nat} (h1 : 1 ≤ code) (h2 : code ≤ 14) : ∃ e, entryFor code = some e := by
  interval_cases code <;> exact ⟨_, rfl⟩

theorem countOf_eq {code : Nat} {e : Entry} (h : entryFor code = some e) : countOf code = e.count := by
  simp [countOf, h]

theorem widthOf_eq {code : Nat} {e : Entry} (h : entryFor code = some e) : widthOf code = e.bitWidth := by
  simp [widthOf, h]

end Sys2Proof.Machine

namespace Sys2Proof

/-- Lane i of the port built from `f` is `f i`. -/
@[simp] theorem lane_lanesOf {f : Nat → Value} {i : Nat} (h : i < 60) : lane (lanesOf f) i = f i := by
  simp [lane, lanesOf, h]

/-- Two ports with the same sixty lanes are the same port. -/
theorem lanes_ext {a b : Lanes} (h : ∀ i < 60, lane a i = lane b i) : a = b := by
  ext1 i hi
  simpa [lane, hi] using h i hi

@[simp] theorem selectorOf_toNat (w : Word) : (selectorOf w).toNat = w.toNat % 2 ^ 4 := by
  simp [selectorOf]

@[simp] theorem payloadOf_toNat (w : Word) : (payloadOf w).toNat = w.toNat / 2 ^ 4 := by
  have := w.isLt
  simp [payloadOf, Nat.shiftRight_eq_div_pow]
  omega

@[simp] theorem wordOf_toNat (p : Payload) (s : Code) : (wordOf p s).toNat = s.toNat + 16 * p.toNat := by
  have := s.isLt
  simp only [wordOf, BitVec.toNat_append]
  rw [← Nat.shiftLeft_add_eq_or_of_lt (by omega), Nat.shiftLeft_eq]
  omega

@[simp] theorem selectorOf_wordOf (p : Payload) (s : Code) : selectorOf (wordOf p s) = s := by
  apply BitVec.eq_of_toNat_eq
  have := s.isLt
  simp
  omega

@[simp] theorem payloadOf_wordOf (p : Payload) (s : Code) : payloadOf (wordOf p s) = p := by
  apply BitVec.eq_of_toNat_eq
  have := s.isLt
  simp
  omega

end Sys2Proof
end

