-- ==== Sys2Proof/Laws/Packing.lean ====
section
/-! SUPPORT. The arithmetic of packing and unpacking at the function level, and what `encodeWord` and `decodeWord` can
answer. -/

namespace Sys2Proof.Machine

/-- The payload of a sequence whose values fit, as one number, slot 0 lowest (spec/41_encoder.md R141). -/
def horner (b : Nat) : List Nat → Nat
  | [] => 0
  | v :: vs => v + 2 ^ b * horner b vs

/-- A payload of n fitting values is below `2^(n·bitWidth)`. -/
theorem horner_lt {b : Nat} : ∀ {vs : List Nat}, (∀ v ∈ vs, v < 2 ^ b) → horner b vs < 2 ^ (vs.length * b)
  | [], _ => by simp [horner]
  | v :: vs, h => by
    have hv := h v (by simp)
    have ih := horner_lt (vs := vs) fun u hu => h u (by simp [hu])
    have : 2 ^ ((v :: vs).length * b) = 2 ^ b * 2 ^ (vs.length * b) := by
      rw [← pow_add]; congr 1; simp; ring
    rw [this, horner]
    calc v + 2 ^ b * horner b vs < 2 ^ b + 2 ^ b * horner b vs := by omega
      _ = 2 ^ b * (horner b vs + 1) := by ring
      _ ≤ 2 ^ b * 2 ^ (vs.length * b) := Nat.mul_le_mul_left _ ih

/-- The or of the shifted values is the payload, shifted by the first index. -/
theorem packedPayload_eq_horner {b : Nat} : ∀ {i : Nat} {vs : List Nat}, (∀ v ∈ vs, v < 2 ^ b) →
    packedPayload b i vs = horner b vs * 2 ^ (i * b)
  | i, [], _ => by simp [packedPayload, horner]
  | i, v :: vs, h => by
    have hv := h v (by simp)
    have ih := packedPayload_eq_horner (i := i + 1) (vs := vs) fun u hu => h u (by simp [hu])
    have hp : 2 ^ ((i + 1) * b) = 2 ^ b * 2 ^ (i * b) := by rw [← pow_add]; congr 1; ring
    have hlt : v <<< (i * b) < 2 ^ ((i + 1) * b) := by
      rw [Nat.shiftLeft_eq, hp]; exact Nat.mul_lt_mul_of_pos_right hv (by positivity)
    rw [packedPayload, ih, ← Nat.shiftLeft_eq (horner b vs), Nat.or_comm,
      ← Nat.shiftLeft_add_eq_or_of_lt hlt, Nat.shiftLeft_eq, Nat.shiftLeft_eq, horner, hp]
    ring

/-- Slot i of a payload is value i, and 0 past the values. -/
theorem horner_slot {b : Nat} : ∀ {vs : List Nat} (i : Nat), (∀ v ∈ vs, v < 2 ^ b) →
    horner b vs / 2 ^ (i * b) % 2 ^ b = vs.getD i 0
  | [], i, _ => by simp [horner]
  | v :: vs, 0, h => by
    have hv := h v (by simp)
    simp [horner, Nat.add_mul_mod_self_left, Nat.mod_eq_of_lt hv]
  | v :: vs, i + 1, h => by
    have hv := h v (by simp)
    have ih := horner_slot (vs := vs) i fun u hu => h u (by simp [hu])
    have hp : 2 ^ ((i + 1) * b) = 2 ^ b * 2 ^ (i * b) := by rw [← pow_add]; congr 1; ring
    rw [horner, hp, ← Nat.div_div_eq_div_mul, Nat.add_mul_div_left _ _ (by positivity),
      Nat.div_eq_of_lt hv, Nat.zero_add, ih]
    simp

/-- Trailing zeros do not change a payload. -/
theorem horner_append_zeros {b : Nat} (n : Nat) : ∀ vs : List Nat, horner b (vs ++ zeros n) = horner b vs
  | [] => by
    induction n with
    | zero => rfl
    | succ n ih => simpa [zeros, List.replicate_succ, horner] using ih
  | v :: vs => by simp [horner, horner_append_zeros n vs]

/-- No element is too large. -/
theorem firstTooLarge_none {b : Nat} : ∀ {i : Nat} {vs : List Nat},
    firstTooLarge b i vs = none ↔ ∀ v ∈ vs, v < 2 ^ b
  | i, [] => by simp [firstTooLarge]
  | i, v :: vs => by
    rw [firstTooLarge]
    split
    · simp; intro; omega
    · rw [firstTooLarge_none]; simp; intro; omega

/-- The answer is the lowest index that is too large. -/
theorem firstTooLarge_some {b : Nat} : ∀ {i k : Nat} {vs : List Nat},
    firstTooLarge b i vs = some k ↔
      ∃ j < vs.length, k = i + j ∧ 2 ^ b ≤ vs.getD j 0 ∧ ∀ l < j, vs.getD l 0 < 2 ^ b
  | i, k, [] => by simp [firstTooLarge]
  | i, k, v :: vs => by
    rw [firstTooLarge]
    split
    · rename_i h
      constructor
      · intro h'; cases h'; exact ⟨0, by simp, rfl, by simpa using h, by simp⟩
      · rintro ⟨j, hj, rfl, h1, h2⟩
        cases j with
        | zero => rfl
        | succ j => have := h2 0 (by simp); simp at this; omega
    · rename_i h
      rw [firstTooLarge_some]
      constructor
      · rintro ⟨j, hj, rfl, h1, h2⟩
        refine ⟨j + 1, by simpa using hj, by omega, by simpa using h1, ?_⟩
        intro l hl
        cases l with
        | zero => simpa using h
        | succ l => simpa using h2 l (by omega)
      · rintro ⟨j, hj, rfl, h1, h2⟩
        cases j with
        | zero => simp at h1; omega
        | succ j =>
          exact ⟨j, by simpa using hj, by omega, by simpa using h1, fun l hl => by simpa using h2 (l + 1) (by omega)⟩

/-- All that `encodeWord` can answer (spec/41_encoder.md R130), with the word as a number. -/
theorem encodeWord_cases (s : Code) (vs : List Nat) :
    (entryFor s.toNat = none ∧ encodeWord s vs = .word 0) ∨
    ∃ e, entryFor s.toNat = some e ∧
      ((e.count < vs.length ∧ encodeWord s vs = .tooManyValues vs.length) ∨
       (vs.length ≤ e.count ∧ (∃ i < vs.length, 2 ^ e.bitWidth ≤ vs.getD i 0 ∧
          (∀ j < i, vs.getD j 0 < 2 ^ e.bitWidth) ∧ encodeWord s vs = .valueOutOfRange i)) ∨
       (vs.length ≤ e.count ∧ (∀ v ∈ vs, v < 2 ^ e.bitWidth) ∧
          ∃ w : Word, encodeWord s vs = .word w ∧ w.toNat = s.toNat + 16 * horner e.bitWidth vs)) := by
  unfold encodeWord
  cases he : entryFor s.toNat with
  | none => exact .inl ⟨rfl, rfl⟩
  | some e =>
    refine .inr ⟨e, rfl, ?_⟩
    by_cases hl : e.count < vs.length
    · simp [hl]
    · cases hf : firstTooLarge e.bitWidth 0 vs with
      | some i =>
        obtain ⟨j, hj, rfl, h1, h2⟩ := firstTooLarge_some.1 hf
        refine .inr (.inl ⟨by omega, j, hj, h1, h2, ?_⟩)
        simp only [hl, hf, if_false, Nat.zero_add]
      | none =>
        have hv := firstTooLarge_none.1 hf
        refine .inr (.inr ⟨by omega, hv, ?_⟩)
        refine ⟨_, by simp only [hl, hf, if_false]; rfl, ?_⟩
        obtain ⟨_, _, _, _, _, _, hb⟩ := entryFor_bounds he
        have h1 := horner_lt hv
        have h2 : 2 ^ (vs.length * e.bitWidth) ≤ 2 ^ 60 := by
          apply Nat.pow_le_pow_right (by norm_num)
          exact le_trans (Nat.mul_le_mul_right _ (by omega)) hb
        have hs := s.isLt
        rw [packedPayload_eq_horner hv, Nat.zero_mul, pow_zero, Nat.mul_one, Nat.or_comm,
          ← Nat.shiftLeft_add_eq_or_of_lt (by omega), Nat.shiftLeft_eq, BitVec.toNat_ofNat]
        omega

/-- `decodeWord` by division and remainder. -/
theorem decodeWord_eq (w : Word) : decodeWord w = match entryFor (w.toNat % 2 ^ 4) with
    | none => []
    | some e => (List.range e.count).map fun i => w.toNat / 2 ^ (4 + i * e.bitWidth) % 2 ^ e.bitWidth := by
  have : w.toNat &&& 0xF = w.toNat % 2 ^ 4 := Nat.and_two_pow_sub_one_eq_mod w.toNat 4
  rw [decodeWord, this]
  cases entryFor (w.toNat % 2 ^ 4) with
  | none => rfl
  | some e =>
    apply List.map_congr_left
    intro i _
    rw [slotmask, Nat.shiftLeft_eq, Nat.one_mul, Nat.and_two_pow_sub_one_eq_mod, Nat.shiftRight_eq_div_pow,
      Nat.shiftRight_eq_div_pow, Nat.div_div_eq_div_mul, ← pow_add]

end Sys2Proof.Machine
end

