-- ==== Sys2Proof/Laws/State.lean ====
section
/-! SUPPORT. One lemma per field and update of `State`, all true by `rfl`, so that no later proof unfolds a record
update, and the same for the response structures' shared constructor. -/

namespace Sys2Proof.Machine

variable (s : State) (c : Code) (len : Len) (lanes : Lanes) (w : Word) (r : Request)

@[simp] theorem State.evalRom_block : (s.evalRom c).block = s.block := rfl
@[simp] theorem State.evalRom_requests : (s.evalRom c).requests = s.requests := rfl
@[simp] theorem State.evalRom_romCode : (s.evalRom c).romCode = c := rfl
@[simp] theorem State.evalRom_romResp : (s.evalRom c).romResp = romPorts c := rfl
@[simp] theorem State.evalRom_encSel : (s.evalRom c).encSel = s.encSel := rfl
@[simp] theorem State.evalRom_encLen : (s.evalRom c).encLen = s.encLen := rfl
@[simp] theorem State.evalRom_encVal : (s.evalRom c).encVal = s.encVal := rfl
@[simp] theorem State.evalRom_encResp : (s.evalRom c).encResp = s.encResp := rfl
@[simp] theorem State.evalRom_decWord : (s.evalRom c).decWord = s.decWord := rfl
@[simp] theorem State.evalRom_decResp : (s.evalRom c).decResp = s.decResp := rfl

@[simp] theorem State.evalEnc_block : (s.evalEnc c len lanes).block = s.block := rfl
@[simp] theorem State.evalEnc_requests : (s.evalEnc c len lanes).requests = s.requests := rfl
@[simp] theorem State.evalEnc_romCode : (s.evalEnc c len lanes).romCode = s.romCode := rfl
@[simp] theorem State.evalEnc_romResp : (s.evalEnc c len lanes).romResp = s.romResp := rfl
@[simp] theorem State.evalEnc_encSel : (s.evalEnc c len lanes).encSel = c := rfl
@[simp] theorem State.evalEnc_encLen : (s.evalEnc c len lanes).encLen = len := rfl
@[simp] theorem State.evalEnc_encVal : (s.evalEnc c len lanes).encVal = lanes := rfl
@[simp] theorem State.evalEnc_encResp : (s.evalEnc c len lanes).encResp = encPorts c len lanes := rfl
@[simp] theorem State.evalEnc_decWord : (s.evalEnc c len lanes).decWord = s.decWord := rfl
@[simp] theorem State.evalEnc_decResp : (s.evalEnc c len lanes).decResp = s.decResp := rfl

@[simp] theorem State.evalDec_block : (s.evalDec w).block = s.block := rfl
@[simp] theorem State.evalDec_requests : (s.evalDec w).requests = s.requests := rfl
@[simp] theorem State.evalDec_romCode : (s.evalDec w).romCode = s.romCode := rfl
@[simp] theorem State.evalDec_romResp : (s.evalDec w).romResp = s.romResp := rfl
@[simp] theorem State.evalDec_encSel : (s.evalDec w).encSel = s.encSel := rfl
@[simp] theorem State.evalDec_encLen : (s.evalDec w).encLen = s.encLen := rfl
@[simp] theorem State.evalDec_encVal : (s.evalDec w).encVal = s.encVal := rfl
@[simp] theorem State.evalDec_encResp : (s.evalDec w).encResp = s.encResp := rfl
@[simp] theorem State.evalDec_decWord : (s.evalDec w).decWord = w := rfl
@[simp] theorem State.evalDec_decResp : (s.evalDec w).decResp = decPorts w := rfl

@[simp] theorem State.presentFirst_block : (s.presentFirst r).block = s.block := rfl
@[simp] theorem State.presentFirst_requests : (s.presentFirst r).requests = r :: s.requests := rfl
@[simp] theorem State.presentFirst_romCode : (s.presentFirst r).romCode = s.romCode := rfl
@[simp] theorem State.presentFirst_romResp : (s.presentFirst r).romResp = s.romResp := rfl
@[simp] theorem State.presentFirst_encSel : (s.presentFirst r).encSel = s.encSel := rfl
@[simp] theorem State.presentFirst_encLen : (s.presentFirst r).encLen = s.encLen := rfl
@[simp] theorem State.presentFirst_encVal : (s.presentFirst r).encVal = s.encVal := rfl
@[simp] theorem State.presentFirst_encResp : (s.presentFirst r).encResp = s.encResp := rfl
@[simp] theorem State.presentFirst_decWord : (s.presentFirst r).decWord = s.decWord := rfl
@[simp] theorem State.presentFirst_decResp : (s.presentFirst r).decResp = s.decResp := rfl

@[simp] theorem deliverFailure_word (st : BitVec 2) (i : Len) : (deliverFailure st i).word = 0 := rfl
@[simp] theorem deliverFailure_status (st : BitVec 2) (i : Len) : (deliverFailure st i).status = st := rfl
@[simp] theorem deliverFailure_info (st : BitVec 2) (i : Len) : (deliverFailure st i).info = i := rfl

/-- Presenting a request and taking the oldest one are inverse. -/
@[simp] theorem State.presented_presentFirst : (s.presentFirst r).presented = some (r, s) := rfl

/-- All that `presented` can answer. -/
theorem State.presented_cases :
    (s.requests = [] ∧ s.presented = none) ∨
    ∃ r rest, s.requests = r :: rest ∧ s.presented = some (r, { s with requests := rest }) := by
  unfold State.presented
  cases h : s.requests with
  | nil => exact .inl ⟨rfl, rfl⟩
  | cons r rest => exact .inr ⟨r, rest, rfl, rfl⟩

end Sys2Proof.Machine
end

