-- ==== Sys2Proof/Laws/Requests.lean ====
section
/-! SUPPORT. What `exec` answers for each unit's forms, and the requests of the forms. -/

namespace Sys2Proof

open Machine

/-- What holds of the code of every number below 16 holds of every code. -/
theorem forall_code {motive : Code → Prop} (h : ∀ n < 16, motive (BitVec.ofNat 4 n)) (c : Code) : motive c := by
  simpa using h c.toNat c.isLt

/-- The form of a LOOKUP request evaluates the selector table unit at that code. -/
@[simp] theorem exec_lookupForm (c : Code) (s : State) : exec (lookupForm c) s = .next (s.evalRom c) := by
  induction c using forall_code with
  | h n hn => interval_cases n <;> rfl

/-- The form of an ENCODE request evaluates the encoder on its fields. -/
@[simp] theorem exec_encodeForm (c : Code) (len : Len) (lanes : Lanes) (s : State) :
    exec (encodeForm c len lanes) s = .next (s.evalEnc c len lanes) := by
  induction c using forall_code with
  | h n hn => interval_cases n <;> rfl

/-- The form of a DECODE request evaluates the decoder on the word. -/
@[simp] theorem exec_decodeForm (c : Code) (p : Payload) (s : State) :
    exec (decodeForm c p) s = .next (s.evalDec (wordOf p c)) := by
  induction c using forall_code with
  | h n hn => interval_cases n <;> rfl

/-- A word is its payload over its selector. -/
@[simp] theorem wordOf_payloadOf_selectorOf (w : Word) : wordOf (payloadOf w) (selectorOf w) = w := by
  apply BitVec.eq_of_toNat_eq
  simp
  omega

/-- What a request does, in one equation: the unit it is addressed to is evaluated on its fields. -/
theorem exec_decodeRequest (r : Request) (s : State) :
    exec (decodeRequest r) s = .next (match r with
      | .romAddr c => s.evalRom c
      | .encReq sel len lanes => s.evalEnc sel len lanes
      | .word w => s.evalDec w) := by
  cases r <;> simp [decodeRequest]

/-- A run of k + 1 steps whose first step answers `next t` is the run of k steps from t. -/
theorem run_succ (k : Nat) (s t : State) (h : step s = .next t) :
    Host.Core.run core (k + 1) s = Host.Core.run core k t := by
  have hrun : ∀ (M : Host.Core) (a b : M.State), M.step a = .next b → M.run (k + 1) a = M.run k b := by
    intro M a b hab
    rw [Host.Core.run, hab]
  exact hrun core s t h

end Sys2Proof
end

