-- ==== Sys2Proof/Laws/Patterns.lean ====
section
/-! SUPPORT. The bits of a request: the lanes as one number, the pattern of each request, and that a request's pattern
sets no bit outside its port. -/

namespace Sys2Proof

open Machine

theorem two_pow_lanes (n : Nat) : 2 ^ (64 * (n + 1)) = 2 ^ 64 * 2 ^ (64 * n) := by
  rw [← pow_add, Nat.mul_succ, Nat.add_comm]

/-- The first lane is the lowest. -/
theorem laneBits_cons (v : Value) (vs : List Value) : laneBits (v :: vs) = v.toNat + 2 ^ 64 * laneBits vs := by
  have h := Nat.shiftLeft_add_eq_or_of_lt v.isLt (laneBits vs)
  rw [laneBits, Nat.or_comm, ← h, Nat.shiftLeft_eq, Nat.add_comm, Nat.mul_comm]

theorem laneBits_lt : ∀ vs : List Value, laneBits vs < 2 ^ (64 * vs.length)
  | [] => by simp [laneBits]
  | v :: vs => by
    have ih := laneBits_lt vs
    have hv := v.isLt
    rw [laneBits_cons, List.length_cons, two_pow_lanes]
    generalize laneBits vs = a at *
    generalize 2 ^ (64 * vs.length) = b at *
    omega

/-- Lane i is the i-th group of 64 bits. -/
theorem laneBits_slice : ∀ (vs : List Value) (i : Nat),
    laneBits vs / 2 ^ (64 * i) % 2 ^ 64 = (vs[i]?.getD 0).toNat
  | [], i => by simp [laneBits]
  | v :: vs, 0 => by
    have hv := v.isLt
    rw [laneBits_cons]
    simp
    omega
  | v :: vs, i + 1 => by
    have hv := v.isLt
    have ih := laneBits_slice vs i
    rw [laneBits_cons, two_pow_lanes, ← Nat.div_div_eq_div_mul, Nat.add_mul_div_left _ _ (by positivity),
      Nat.div_eq_of_lt hv, Nat.zero_add, ih]
    simp

/-- The bits of an ENCODE request as a sum: `enc_sel`, then `enc_len`, then the lanes. -/
theorem bits_encReq (sel : Code) (len : Len) (lanes : Lanes) :
    (patternOf (.encReq sel len lanes)).bits = sel.toNat + 2 ^ 4 * (len.toNat + 2 ^ 6 * laneBits lanes.toList) := by
  have h1 := sel.isLt
  have h2 := len.isLt
  show sel.toNat ||| (len.toNat <<< 4) ||| (laneBits lanes.toList <<< 10) = _
  generalize laneBits lanes.toList = L
  rw [Nat.or_comm sel.toNat, ← Nat.shiftLeft_add_eq_or_of_lt h1, Nat.or_comm,
    ← Nat.shiftLeft_add_eq_or_of_lt (by rw [Nat.shiftLeft_eq]; omega), Nat.shiftLeft_eq, Nat.shiftLeft_eq]
  ring

/-- A pattern is well-formed when its number fits the port. -/
theorem wellFormed_iff (p : Pattern) : p.WellFormed = true ↔ p.bits < 2 ^ p.port.width := by
  simp [Pattern.WellFormed, Nat.shiftRight_eq_div_pow, Nat.div_eq_zero_iff]

theorem two_pow_width_encReq : 2 ^ Port.encReq.width = 2 ^ 4 * (2 ^ 6 * 2 ^ (64 * 60)) := by
  have h : Port.encReq.width = 4 + (6 + 64 * 60) := rfl
  rw [← pow_add, ← pow_add, h]

/-- A request sets no bit outside its port (spec/10_state.md R36, spec/30_encoding.md R73). -/
theorem patternOf_wellFormed (r : Request) : (patternOf r).WellFormed = true := by
  rw [wellFormed_iff]
  cases r with
  | romAddr c => exact c.isLt
  | word w => exact w.isLt
  | encReq sel len lanes =>
    have hp : (patternOf (.encReq sel len lanes)).port = .encReq := rfl
    have h := laneBits_lt lanes.toList
    have h1 := sel.isLt
    have h2 := len.isLt
    rw [Vector.length_toList] at h
    rw [hp, bits_encReq, two_pow_width_encReq]
    generalize laneBits lanes.toList = L at *
    generalize (2 : Nat) ^ (64 * 60) = P at *
    omega

end Sys2Proof
end

