-- ==== Sys2Proof/Laws/PerInstr.lean ====
section
/-! SUPPORT. The per-instruction family `FitsItsPort`: the pattern of a form is addressed to its own unit's port, sets no
bit outside it, and carries the form's number in bits [3:0] (spec/30_encoding.md R63 to R65, R69). -/

namespace Sys2Proof.Laws.FitsItsPort

/-- The form's unit and its number in its mnemonic. -/
def unitAndCode : Instr → Port × Nat
  | .lookup0 => (.romAddr, 0)
  | .lookup1 => (.romAddr, 1)
  | .lookup2 => (.romAddr, 2)
  | .lookup3 => (.romAddr, 3)
  | .lookup4 => (.romAddr, 4)
  | .lookup5 => (.romAddr, 5)
  | .lookup6 => (.romAddr, 6)
  | .lookup7 => (.romAddr, 7)
  | .lookup8 => (.romAddr, 8)
  | .lookup9 => (.romAddr, 9)
  | .lookup10 => (.romAddr, 10)
  | .lookup11 => (.romAddr, 11)
  | .lookup12 => (.romAddr, 12)
  | .lookup13 => (.romAddr, 13)
  | .lookup14 => (.romAddr, 14)
  | .lookup15 => (.romAddr, 15)
  | .encode0 _ _ => (.encReq, 0)
  | .encode1 _ _ => (.encReq, 1)
  | .encode2 _ _ => (.encReq, 2)
  | .encode3 _ _ => (.encReq, 3)
  | .encode4 _ _ => (.encReq, 4)
  | .encode5 _ _ => (.encReq, 5)
  | .encode6 _ _ => (.encReq, 6)
  | .encode7 _ _ => (.encReq, 7)
  | .encode8 _ _ => (.encReq, 8)
  | .encode9 _ _ => (.encReq, 9)
  | .encode10 _ _ => (.encReq, 10)
  | .encode11 _ _ => (.encReq, 11)
  | .encode12 _ _ => (.encReq, 12)
  | .encode13 _ _ => (.encReq, 13)
  | .encode14 _ _ => (.encReq, 14)
  | .encode15 _ _ => (.encReq, 15)
  | .decode0 _ => (.word, 0)
  | .decode1 _ => (.word, 1)
  | .decode2 _ => (.word, 2)
  | .decode3 _ => (.word, 3)
  | .decode4 _ => (.word, 4)
  | .decode5 _ => (.word, 5)
  | .decode6 _ => (.word, 6)
  | .decode7 _ => (.word, 7)
  | .decode8 _ => (.word, 8)
  | .decode9 _ => (.word, 9)
  | .decode10 _ => (.word, 10)
  | .decode11 _ => (.word, 11)
  | .decode12 _ => (.word, 12)
  | .decode13 _ => (.word, 13)
  | .decode14 _ => (.word, 14)
  | .decode15 _ => (.word, 15)

/-- The form's pattern is well-formed, on the port of its unit, and its bits [3:0] are its number. -/
def Statement (i : Instr) : Prop :=
  (encode i).WellFormed = true ∧ (encode i).port = (unitAndCode i).1 ∧ (encode i).bits % 16 = (unitAndCode i).2

theorem of_romAddr {i : Instr} (c : Code) (h : encodeRequest i = .romAddr c)
    (hu : unitAndCode i = (.romAddr, c.toNat)) : Statement i := by
  have h1 := c.isLt
  refine ⟨patternOf_wellFormed _, ?_, ?_⟩ <;> simp only [encode, h, hu, patternOf]
  omega

theorem of_encReq {i : Instr} (c : Code) (len : Len) (lanes : Lanes) (h : encodeRequest i = .encReq c len lanes)
    (hu : unitAndCode i = (.encReq, c.toNat)) : Statement i := by
  have h1 := c.isLt
  refine ⟨patternOf_wellFormed _, ?_, ?_⟩
  · simp only [encode, h, hu, patternOf]
  · rw [encode, h, hu, bits_encReq]
    generalize laneBits lanes.toList = L
    omega

theorem of_word {i : Instr} (c : Code) (payload : Payload) (h : encodeRequest i = .word (wordOf payload c))
    (hu : unitAndCode i = (.word, c.toNat)) : Statement i := by
  have h1 := c.isLt
  refine ⟨patternOf_wellFormed _, ?_, ?_⟩
  · simp only [encode, h, hu, patternOf]
  · simp only [encode, h, hu, patternOf, wordOf_toNat]
    omega

theorem lookup0 : Statement .lookup0 := of_romAddr 0 rfl rfl
theorem lookup1 : Statement .lookup1 := of_romAddr 1 rfl rfl
theorem lookup2 : Statement .lookup2 := of_romAddr 2 rfl rfl
theorem lookup3 : Statement .lookup3 := of_romAddr 3 rfl rfl
theorem lookup4 : Statement .lookup4 := of_romAddr 4 rfl rfl
theorem lookup5 : Statement .lookup5 := of_romAddr 5 rfl rfl
theorem lookup6 : Statement .lookup6 := of_romAddr 6 rfl rfl
theorem lookup7 : Statement .lookup7 := of_romAddr 7 rfl rfl
theorem lookup8 : Statement .lookup8 := of_romAddr 8 rfl rfl
theorem lookup9 : Statement .lookup9 := of_romAddr 9 rfl rfl
theorem lookup10 : Statement .lookup10 := of_romAddr 10 rfl rfl
theorem lookup11 : Statement .lookup11 := of_romAddr 11 rfl rfl
theorem lookup12 : Statement .lookup12 := of_romAddr 12 rfl rfl
theorem lookup13 : Statement .lookup13 := of_romAddr 13 rfl rfl
theorem lookup14 : Statement .lookup14 := of_romAddr 14 rfl rfl
theorem lookup15 : Statement .lookup15 := of_romAddr 15 rfl rfl
theorem encode0 (len : Len) (lanes : Lanes) : Statement (.encode0 len lanes) :=
  of_encReq 0 len lanes rfl rfl
theorem encode1 (len : Len) (lanes : Lanes) : Statement (.encode1 len lanes) :=
  of_encReq 1 len lanes rfl rfl
theorem encode2 (len : Len) (lanes : Lanes) : Statement (.encode2 len lanes) :=
  of_encReq 2 len lanes rfl rfl
theorem encode3 (len : Len) (lanes : Lanes) : Statement (.encode3 len lanes) :=
  of_encReq 3 len lanes rfl rfl
theorem encode4 (len : Len) (lanes : Lanes) : Statement (.encode4 len lanes) :=
  of_encReq 4 len lanes rfl rfl
theorem encode5 (len : Len) (lanes : Lanes) : Statement (.encode5 len lanes) :=
  of_encReq 5 len lanes rfl rfl
theorem encode6 (len : Len) (lanes : Lanes) : Statement (.encode6 len lanes) :=
  of_encReq 6 len lanes rfl rfl
theorem encode7 (len : Len) (lanes : Lanes) : Statement (.encode7 len lanes) :=
  of_encReq 7 len lanes rfl rfl
theorem encode8 (len : Len) (lanes : Lanes) : Statement (.encode8 len lanes) :=
  of_encReq 8 len lanes rfl rfl
theorem encode9 (len : Len) (lanes : Lanes) : Statement (.encode9 len lanes) :=
  of_encReq 9 len lanes rfl rfl
theorem encode10 (len : Len) (lanes : Lanes) : Statement (.encode10 len lanes) :=
  of_encReq 10 len lanes rfl rfl
theorem encode11 (len : Len) (lanes : Lanes) : Statement (.encode11 len lanes) :=
  of_encReq 11 len lanes rfl rfl
theorem encode12 (len : Len) (lanes : Lanes) : Statement (.encode12 len lanes) :=
  of_encReq 12 len lanes rfl rfl
theorem encode13 (len : Len) (lanes : Lanes) : Statement (.encode13 len lanes) :=
  of_encReq 13 len lanes rfl rfl
theorem encode14 (len : Len) (lanes : Lanes) : Statement (.encode14 len lanes) :=
  of_encReq 14 len lanes rfl rfl
theorem encode15 (len : Len) (lanes : Lanes) : Statement (.encode15 len lanes) :=
  of_encReq 15 len lanes rfl rfl
theorem decode0 (payload : Payload) : Statement (.decode0 payload) := of_word 0 payload rfl rfl
theorem decode1 (payload : Payload) : Statement (.decode1 payload) := of_word 1 payload rfl rfl
theorem decode2 (payload : Payload) : Statement (.decode2 payload) := of_word 2 payload rfl rfl
theorem decode3 (payload : Payload) : Statement (.decode3 payload) := of_word 3 payload rfl rfl
theorem decode4 (payload : Payload) : Statement (.decode4 payload) := of_word 4 payload rfl rfl
theorem decode5 (payload : Payload) : Statement (.decode5 payload) := of_word 5 payload rfl rfl
theorem decode6 (payload : Payload) : Statement (.decode6 payload) := of_word 6 payload rfl rfl
theorem decode7 (payload : Payload) : Statement (.decode7 payload) := of_word 7 payload rfl rfl
theorem decode8 (payload : Payload) : Statement (.decode8 payload) := of_word 8 payload rfl rfl
theorem decode9 (payload : Payload) : Statement (.decode9 payload) := of_word 9 payload rfl rfl
theorem decode10 (payload : Payload) : Statement (.decode10 payload) := of_word 10 payload rfl rfl
theorem decode11 (payload : Payload) : Statement (.decode11 payload) := of_word 11 payload rfl rfl
theorem decode12 (payload : Payload) : Statement (.decode12 payload) := of_word 12 payload rfl rfl
theorem decode13 (payload : Payload) : Statement (.decode13 payload) := of_word 13 payload rfl rfl
theorem decode14 (payload : Payload) : Statement (.decode14 payload) := of_word 14 payload rfl rfl
theorem decode15 (payload : Payload) : Statement (.decode15 payload) := of_word 15 payload rfl rfl

end Sys2Proof.Laws.FitsItsPort
end

