-- ==== Sys2Proof/Laws/Ports.lean ====
section
/-! SUPPORT. What the encoder and the decoder can answer at the port level, as numbers. -/

namespace Sys2Proof.Machine

theorem misfits_iff {b : Nat} {v : Value} : misfits b v = true ↔ 2 ^ b ≤ v.toNat := by
  have : v >>> b = 0 ↔ v.toNat < 2 ^ b := by
    rw [← BitVec.toNat_inj]
    simp [Nat.shiftRight_eq_div_pow, Nat.div_eq_zero_iff]
  rw [misfits, bne_iff_ne, ne_eq, this, not_lt]

theorem misfits_eq_false {b : Nat} {v : Value} : misfits b v = false ↔ v.toNat < 2 ^ b := by
  rw [← not_le, ← misfits_iff, Bool.not_eq_true]

theorem firstMisfit_none {b n : Nat} {lanes : Lanes} :
    firstMisfit b n lanes = none ↔ ∀ i < n, (lane lanes i).toNat < 2 ^ b := by
  simp [firstMisfit, misfits_eq_false]

theorem firstMisfit_some {b n i : Nat} {lanes : Lanes} :
    firstMisfit b n lanes = some i ↔
      i < n ∧ 2 ^ b ≤ (lane lanes i).toNat ∧ ∀ j < i, (lane lanes j).toNat < 2 ^ b := by
  simp only [firstMisfit, List.find?_range_eq_some, List.mem_range, misfits_iff, Bool.not_eq_true', misfits_eq_false]
  tauto

theorem horner_concat {b v : Nat} : ∀ vs : List Nat, horner b (vs ++ [v]) = horner b vs + 2 ^ (vs.length * b) * v
  | [] => by simp [horner]
  | u :: vs => by
    rw [List.cons_append, horner, horner_concat vs, horner, List.length_cons, Nat.succ_mul, Nat.add_comm _ b, pow_add]
    ring

theorem inSlot_toNat {b i : Nat} {v : Value} (hv : v.toNat < 2 ^ b) (hb : (i + 1) * b ≤ 60) :
    (inSlot b i v).toNat = v.toNat * 2 ^ (4 + i * b) := by
  have hle : v.toNat * 2 ^ (4 + i * b) < 2 ^ 64 := by
    calc v.toNat * 2 ^ (4 + i * b) < 2 ^ b * 2 ^ (4 + i * b) := Nat.mul_lt_mul_of_pos_right hv (by positivity)
      _ = 2 ^ (4 + (i + 1) * b) := by rw [← pow_add]; congr 1; ring
      _ ≤ 2 ^ 64 := Nat.pow_le_pow_right (by norm_num) (by omega)
  simp only [inSlot, slotLsb, BitVec.toNat_shiftLeft, BitVec.toNat_setWidth, BitVec.extractLsb'_toNat,
    Nat.shiftRight_zero, Nat.mod_eq_of_lt hv, Nat.mod_eq_of_lt v.isLt, Nat.shiftLeft_eq, Nat.mod_eq_of_lt hle]

/-- What the slots of the encoder's word hold: lane i below the length, 0 past it. -/
def placed (n : Nat) (len : Len) (lanes : Lanes) : List Nat :=
  (List.range n).map fun i => if i < len.toNat then (lane lanes i).toNat else 0

theorem placed_lt {b n : Nat} {len : Len} {lanes : Lanes} (h : ∀ i < len.toNat, (lane lanes i).toNat < 2 ^ b) :
    ∀ v ∈ placed n len lanes, v < 2 ^ b := by
  intro v hv
  simp only [placed, List.mem_map, List.mem_range] at hv
  obtain ⟨i, _, rfl⟩ := hv
  split
  · exact h i ‹_›
  · positivity

theorem foldl_place {sel : Code} {b : Nat} {len : Len} {lanes : Lanes}
    (h : ∀ i < len.toNat, (lane lanes i).toNat < 2 ^ b) : ∀ n, n * b ≤ 60 →
    ((List.range n).foldl
      (fun w i => w ||| (if i < len.toNat then inSlot b i (lane lanes i) else 0)) (sel.setWidth 64 : Word)).toNat =
      sel.toNat + 16 * horner b (placed n len lanes)
  | 0, _ => by have := sel.isLt; simp [placed, horner]; omega
  | n + 1, hn => by
    have hn' : n * b ≤ 60 := le_trans (Nat.mul_le_mul_right _ (by omega)) hn
    have ih := foldl_place h n hn' (sel := sel)
    rw [List.range_succ, List.foldl_append, List.foldl_cons, List.foldl_nil, BitVec.toNat_or, ih]
    have hp : placed (n + 1) len lanes = placed n len lanes ++ [if n < len.toNat then (lane lanes n).toNat else 0] := by
      simp [placed, List.range_succ]
    have hlen : (placed n len lanes).length = n := by simp [placed]
    have hlt := horner_lt (placed_lt (n := n) h)
    rw [hlen] at hlt
    have hs := sel.isLt
    have hf : (if n < len.toNat then inSlot b n (lane lanes n) else (0 : Word)).toNat =
        (if n < len.toNat then (lane lanes n).toNat else 0) * 2 ^ (4 + n * b) := by
      split
      · exact inSlot_toNat (h n ‹_›) hn
      · simp
    have hlt' : sel.toNat + 16 * horner b (placed n len lanes) < 2 ^ (4 + n * b) := by
      rw [pow_add]; omega
    rw [hf, hp, horner_concat, hlen, Nat.or_comm, ← Nat.shiftLeft_eq, ← Nat.shiftLeft_add_eq_or_of_lt hlt',
      Nat.shiftLeft_eq, pow_add]
    ring

theorem placeLanes_toNat {sel : Code} {e : Entry} {len : Len} {lanes : Lanes} (hb : e.count * e.bitWidth ≤ 60)
    (h : ∀ i < len.toNat, (lane lanes i).toNat < 2 ^ e.bitWidth) :
    (placeLanes sel e len lanes).toNat = sel.toNat + 16 * horner e.bitWidth (placed e.count len lanes) :=
  foldl_place h e.count hb

/-- All that the encoder's ports can answer (spec/41_encoder.md R142), with the word as a number. -/
theorem encPorts_cases (sel : Code) (len : Len) (lanes : Lanes) :
    (entryFor sel.toNat = none ∧ encPorts sel len lanes = ⟨0, 1, 0⟩) ∨
    ∃ e, entryFor sel.toNat = some e ∧
      ((e.count < len.toNat ∧ encPorts sel len lanes = ⟨0, 2, len⟩) ∨
       (len.toNat ≤ e.count ∧ (∃ i < len.toNat, 2 ^ e.bitWidth ≤ (lane lanes i).toNat ∧
          (∀ j < i, (lane lanes j).toNat < 2 ^ e.bitWidth) ∧ encPorts sel len lanes = ⟨0, 3, BitVec.ofNat 6 i⟩)) ∨
       (len.toNat ≤ e.count ∧ (∀ i < len.toNat, (lane lanes i).toNat < 2 ^ e.bitWidth) ∧
          ∃ w : Word, encPorts sel len lanes = ⟨w, 0, 0⟩ ∧
            w.toNat = sel.toNat + 16 * horner e.bitWidth (placed e.count len lanes))) := by
  unfold encPorts
  cases he : entryFor sel.toNat with
  | none => exact .inl ⟨rfl, rfl⟩
  | some e =>
    refine .inr ⟨e, rfl, ?_⟩
    by_cases hl : e.count < len.toNat
    · exact .inl ⟨hl, by simp only [hl, if_true]; rfl⟩
    · cases hf : firstMisfit e.bitWidth len.toNat lanes with
      | some i =>
        obtain ⟨h0, h1, h2⟩ := firstMisfit_some.1 hf
        exact .inr (.inl ⟨by omega, i, h0, h1, h2, by simp only [hl, hf, if_false]; rfl⟩)
      | none =>
        have hv := firstMisfit_none.1 hf
        exact .inr (.inr ⟨by omega, hv, _, by simp only [hl, hf, if_false]; rfl,
          placeLanes_toNat (entryFor_bounds he).2.2.2.2.2.2 hv⟩)

theorem slotOf_toNat {b i : Nat} {w : Word} (hb : b ≤ 64) :
    (slotOf b i w).toNat = w.toNat / 2 ^ (4 + i * b) % 2 ^ b := by
  have : w.toNat / 2 ^ (4 + i * b) % 2 ^ b < 2 ^ 64 :=
    lt_of_lt_of_le (Nat.mod_lt _ (by positivity)) (Nat.pow_le_pow_right (by norm_num) hb)
  simp only [slotOf, slotLsb, BitVec.toNat_setWidth, BitVec.extractLsb'_toNat, Nat.shiftRight_eq_div_pow,
    Nat.mod_eq_of_lt this]

theorem padFlag_eq_one {e : Entry} {w : Word} :
    padFlag e w = 1 ↔ e.count * e.bitWidth < 60 ∧ w.toNat / 2 ^ (4 + e.count * e.bitWidth) ≠ 0 := by
  have : w >>> padLsb e = 0 ↔ w.toNat / 2 ^ (4 + e.count * e.bitWidth) = 0 := by
    rw [← BitVec.toNat_inj]; simp [Nat.shiftRight_eq_div_pow, padLsb]
  unfold padFlag
  simp only [ne_eq, this]
  split <;> simp_all

/-- All that the decoder's ports can answer (spec/42_decoder.md R178). -/
theorem decPorts_cases (w : Word) :
    (entryFor (w.toNat % 2 ^ 4) = none ∧ decPorts w = ⟨0, Vector.replicate 60 0, 1, 0⟩) ∨
    ∃ e, entryFor (w.toNat % 2 ^ 4) = some e ∧ ∃ val, decPorts w = ⟨BitVec.ofNat 6 e.count, val, 0, padFlag e w⟩ ∧
      (∀ i < e.count, (lane val i).toNat = w.toNat / 2 ^ (4 + i * e.bitWidth) % 2 ^ e.bitWidth) ∧
      ∀ i, e.count ≤ i → i < 60 → lane val i = 0 := by
  unfold decPorts
  rw [selectorOf_toNat]
  cases he : entryFor (w.toNat % 2 ^ 4) with
  | none =>
    refine .inl ⟨rfl, ?_⟩
    have : (lanesOf fun _ => 0) = Vector.replicate 60 0 := by
      apply lanes_ext; intro i hi; rw [lane_lanesOf hi]; simp [hi, lane]
    rw [this]; rfl
  | some e =>
    refine .inr ⟨e, rfl, _, rfl, ?_, ?_⟩
    · intro i hi
      obtain ⟨_, _, _, h1, _, h2, _⟩ := entryFor_bounds he
      rw [lane_lanesOf (by omega), if_pos hi, slotOf_toNat (by omega)]
    · intro i h1 h2
      rw [lane_lanesOf h2, if_neg (by omega)]

end Sys2Proof.Machine
end

