-- ==== Sys2Proof/Tests/Slice0.lean ====
section
/-! SUPPORT. The session's own tests. Expected results are those of spec/95_test_vectors.md, cited by their names there
(S the source's examples; E, EI, EV, ET, D, DP function level; PE, PD, PR port level), or are written out from the
encodings of spec/30_encoding.md R60 to R65; and one witness for the hypotheses of each obligation that has any. -/

namespace Sys2Proof.Tests

open Sys2Proof.Machine Sys2Proof.Stated

/-- Lanes that hold `vs` and then `rest` on every later lane. -/
def lanesWith (vs : List Value) (rest : Value) : Lanes := lanesOf fun i => vs[i]?.getD rest

/-- What spec/95_test_vectors.md puts on a lane that must not be read. -/
def junk : Value := 0xDEADBEEFDEADBEEF

/-- The state a test starts in: every unit's outputs differ from what the tests expect. -/
def start : State where
  block := ()
  requests := []
  romCode := 7
  romResp := ⟨1, 61, 61⟩
  encSel := 7
  encLen := 1
  encVal := Vector.replicate 60 junk
  encResp := ⟨0xDEAD, 2, 63⟩
  decWord := 0xDEAD
  decResp := ⟨63, Vector.replicate 60 junk, 0, 1⟩

/-- The selector table unit's outputs after the step, when it answers a next state. -/
def romAfter (i : Instr) : Option RomResponse :=
  match exec i start with
  | .next t => some t.romResp
  | .fault _ => none
  | .refused _ => none

/-- The encoder's outputs after the step, when it answers a next state. -/
def encAfter (i : Instr) : Option EncResponse :=
  match exec i start with
  | .next t => some t.encResp
  | .fault _ => none
  | .refused _ => none

/-- The decoder's outputs after the step, when it answers a next state: the first `dec_len` lanes, whether the other
lanes are 0, the status and the padding flag. -/
def decAfter (i : Instr) : Option (List Nat × Bool × BitVec 1 × BitVec 1) :=
  match exec i start with
  | .next t => some (t.decoded, ((t.decResp.val.toList.drop t.decResp.len.toNat).all (· == 0)), t.decResp.status,
      t.decResp.padNz)
  | .fault _ => none
  | .refused _ => none

/-! ### Widths -/

/-- The types of Word.lean have the widths of Config (spec/00_scope.md R7, R8). -/
theorem test_widths : Word = BitVec Config.wordW ∧ Code = BitVec Config.selW ∧ Payload = BitVec Config.payloadW ∧
    Value = BitVec Config.valW ∧ Len = BitVec Config.lenW ∧ Lanes = Vector Value Config.lanes :=
  ⟨rfl, rfl, rfl, rfl, rfl, rfl⟩

/-- The counts of R7 agree with the table. -/
theorem test_table_size : canonicalTable.length = Config.nEntries ∧ 2 ^ Config.selW = Config.nCodes ∧
    (canonicalTable.map fun r => r.2.count).max? = some Config.maxCount ∧
    (canonicalTable.map fun r => r.2.bitWidth).max? = some Config.maxWidth := by decide

/-- Section 2.6: `slotmask(60)` does not overflow. -/
theorem test_slotmask_60 : slotmask 60 = 0x0FFFFFFFFFFFFFFF := by decide

/-! ### WellFormed: a pattern that sets a bit outside its port is refused (R73) -/

theorem test_wf_romAddr : Pattern.WellFormed ⟨.romAddr, 0b1111⟩ = true ∧
    Pattern.WellFormed ⟨.romAddr, 0b10000⟩ = false ∧
    decode ⟨.romAddr, 0b10000⟩ = .error (.bitsOutsidePort .romAddr) := ⟨rfl, rfl, rfl⟩

theorem test_wf_word : Pattern.WellFormed ⟨.word, 0xFFFFFFFFFFFFFFFF⟩ = true ∧
    Pattern.WellFormed ⟨.word, 0x10000000000000000⟩ = false ∧
    decode ⟨.word, 0x1000000000000000C⟩ = .error (.bitsOutsidePort .word) := ⟨rfl, rfl, rfl⟩

theorem test_wf_encReq : Pattern.WellFormed ⟨.encReq, 1 <<< 3849⟩ = true ∧
    Pattern.WellFormed ⟨.encReq, 1 <<< 3850⟩ = false ∧
    decode ⟨.encReq, 1 <<< 3850⟩ = .error (.bitsOutsidePort .encReq) := ⟨rfl, rfl, rfl⟩

/-! ### Words written out from the spec's encodings -/

/-- R63: `rom_code` is the code. -/
theorem test_decode_lookup_words :
    decode ⟨.romAddr, 0b0000⟩ = .ok .lookup0 ∧
    decode ⟨.romAddr, 0b0001⟩ = .ok .lookup1 ∧
    decode ⟨.romAddr, 0b0010⟩ = .ok .lookup2 ∧
    decode ⟨.romAddr, 0b0011⟩ = .ok .lookup3 ∧
    decode ⟨.romAddr, 0b0100⟩ = .ok .lookup4 ∧
    decode ⟨.romAddr, 0b0101⟩ = .ok .lookup5 ∧
    decode ⟨.romAddr, 0b0110⟩ = .ok .lookup6 ∧
    decode ⟨.romAddr, 0b0111⟩ = .ok .lookup7 ∧
    decode ⟨.romAddr, 0b1000⟩ = .ok .lookup8 ∧
    decode ⟨.romAddr, 0b1001⟩ = .ok .lookup9 ∧
    decode ⟨.romAddr, 0b1010⟩ = .ok .lookup10 ∧
    decode ⟨.romAddr, 0b1011⟩ = .ok .lookup11 ∧
    decode ⟨.romAddr, 0b1100⟩ = .ok .lookup12 ∧
    decode ⟨.romAddr, 0b1101⟩ = .ok .lookup13 ∧
    decode ⟨.romAddr, 0b1110⟩ = .ok .lookup14 ∧
    decode ⟨.romAddr, 0b1111⟩ = .ok .lookup15 := by decide

/-- R64: `enc_sel` in bits [3:0], `enc_len` in bits [9:4], lane 0 from bit 10 (notes/assumptions/8.md). -/
theorem test_decode_encode_words :
    decode ⟨.encReq, 0b000001_0000⟩ = .ok (.encode0 1 (Vector.replicate 60 0)) ∧
    decode ⟨.encReq, 0b000101_0001⟩ = .ok (.encode1 5 (Vector.replicate 60 0)) ∧
    decode ⟨.encReq, 0b001001_0010⟩ = .ok (.encode2 9 (Vector.replicate 60 0)) ∧
    decode ⟨.encReq, 0b001101_0011⟩ = .ok (.encode3 13 (Vector.replicate 60 0)) ∧
    decode ⟨.encReq, 0b010001_0100⟩ = .ok (.encode4 17 (Vector.replicate 60 0)) ∧
    decode ⟨.encReq, 0b010101_0101⟩ = .ok (.encode5 21 (Vector.replicate 60 0)) ∧
    decode ⟨.encReq, 0b011001_0110⟩ = .ok (.encode6 25 (Vector.replicate 60 0)) ∧
    decode ⟨.encReq, 0b011101_0111⟩ = .ok (.encode7 29 (Vector.replicate 60 0)) ∧
    decode ⟨.encReq, 0b100001_1000⟩ = .ok (.encode8 33 (Vector.replicate 60 0)) ∧
    decode ⟨.encReq, 0b100101_1001⟩ = .ok (.encode9 37 (Vector.replicate 60 0)) ∧
    decode ⟨.encReq, 0b101001_1010⟩ = .ok (.encode10 41 (Vector.replicate 60 0)) ∧
    decode ⟨.encReq, 0b101101_1011⟩ = .ok (.encode11 45 (Vector.replicate 60 0)) ∧
    decode ⟨.encReq, 0b110001_1100⟩ = .ok (.encode12 49 (Vector.replicate 60 0)) ∧
    decode ⟨.encReq, 0b110101_1101⟩ = .ok (.encode13 53 (Vector.replicate 60 0)) ∧
    decode ⟨.encReq, 0b111001_1110⟩ = .ok (.encode14 57 (Vector.replicate 60 0)) ∧
    decode ⟨.encReq, 0b111101_1111⟩ = .ok (.encode15 61 (Vector.replicate 60 0)) :=
  by and_intros <;> rfl

/-- R64: lanes 0 and 1 of an `ENCODE.12` request of length 2: 64 bits each, above `enc_len` = 2 and `enc_sel` = 12. -/
theorem test_decode_encode_lanes :
    decode ⟨.encReq, 0b101_0000000000000000000000000000000000000000000000000000000000000110_000010_1100⟩ =
      .ok (.encode12 2 (lanesWith [6, 5] 0)) := rfl

/-- R60, R61, R65: the pattern word of section 2.3 under each selector, its payload split off. -/
theorem test_decode_decode_words :
    decode ⟨.word, 0x123456789ABCDEF0⟩ = .ok (.decode0 0x123456789ABCDEF) ∧
    decode ⟨.word, 0x123456789ABCDEF1⟩ = .ok (.decode1 0x123456789ABCDEF) ∧
    decode ⟨.word, 0x123456789ABCDEF2⟩ = .ok (.decode2 0x123456789ABCDEF) ∧
    decode ⟨.word, 0x123456789ABCDEF3⟩ = .ok (.decode3 0x123456789ABCDEF) ∧
    decode ⟨.word, 0x123456789ABCDEF4⟩ = .ok (.decode4 0x123456789ABCDEF) ∧
    decode ⟨.word, 0x123456789ABCDEF5⟩ = .ok (.decode5 0x123456789ABCDEF) ∧
    decode ⟨.word, 0x123456789ABCDEF6⟩ = .ok (.decode6 0x123456789ABCDEF) ∧
    decode ⟨.word, 0x123456789ABCDEF7⟩ = .ok (.decode7 0x123456789ABCDEF) ∧
    decode ⟨.word, 0x123456789ABCDEF8⟩ = .ok (.decode8 0x123456789ABCDEF) ∧
    decode ⟨.word, 0x123456789ABCDEF9⟩ = .ok (.decode9 0x123456789ABCDEF) ∧
    decode ⟨.word, 0x123456789ABCDEFA⟩ = .ok (.decode10 0x123456789ABCDEF) ∧
    decode ⟨.word, 0x123456789ABCDEFB⟩ = .ok (.decode11 0x123456789ABCDEF) ∧
    decode ⟨.word, 0x123456789ABCDEFC⟩ = .ok (.decode12 0x123456789ABCDEF) ∧
    decode ⟨.word, 0x123456789ABCDEFD⟩ = .ok (.decode13 0x123456789ABCDEF) ∧
    decode ⟨.word, 0x123456789ABCDEFE⟩ = .ok (.decode14 0x123456789ABCDEF) ∧
    decode ⟨.word, 0x123456789ABCDEFF⟩ = .ok (.decode15 0x123456789ABCDEF) := by decide

/-- R61 bit by bit for `DECODE.13`: slot 1 = 2 in bits [63:34], slot 0 = 1 in bits [33:4], the selector 1101. -/
theorem test_decode_word_bits :
    decode ⟨.word, 0b000000000000000000000000000010_000000000000000000000000000001_1101⟩ =
      .ok (.decode13 0b000000000000000000000000000010_000000000000000000000000000001) := by decide

/-- Table words: 4 bits in one byte are a LOOKUP's, 64 bits a DECODE's (notes/assumptions/7.md, 8.md). -/
theorem test_table_words : decodeTableWord 4 0b0101 = some .lookup5 ∧ decodeTableWord 8 0b0101 = some .lookup5 ∧
    decodeTableWord 8 0b10101 = none ∧ decodeTableWord 64 0x000030000200001C = some (.decode12 0x000030000200001) ∧
    decodeTableWord 32 0 = none := ⟨rfl, rfl, rfl, rfl, rfl⟩

/-- A whole ENCODE request as a table word. -/
theorem test_table_word_encReq : decodeTableWord 3856 0b000001_1110 = some (.encode14 1 (Vector.replicate 60 0)) :=
    rfl

/-- The encoder writes what the decoder reads. -/
theorem test_encode_words : encode .lookup9 = ⟨.romAddr, 0b1001⟩ ∧
    encode (.decode12 0x000030000200001) = ⟨.word, 0x000030000200001C⟩ ∧
    encode (.encode12 2 (lanesWith [6, 5] 0)) =
      ⟨.encReq, 0b101_0000000000000000000000000000000000000000000000000000000000000110_000010_1100⟩ :=
  ⟨rfl, rfl, rfl⟩

/-! ### LOOKUP (section 2.1) -/

theorem test_lookup0 : romAfter .lookup0 = some ⟨0, 0, 0⟩ ∧ romEntry 0 = 0x0000 := by decide
theorem test_lookup1 : romAfter .lookup1 = some ⟨1, 60, 1⟩ ∧ romEntry 1 = 0x1F01 := by decide
theorem test_lookup2 : romAfter .lookup2 = some ⟨1, 30, 2⟩ ∧ romEntry 2 = 0x1782 := by decide
theorem test_lookup3 : romAfter .lookup3 = some ⟨1, 20, 3⟩ ∧ romEntry 3 = 0x1503 := by decide
theorem test_lookup4 : romAfter .lookup4 = some ⟨1, 15, 4⟩ ∧ romEntry 4 = 0x13C4 := by decide
theorem test_lookup5 : romAfter .lookup5 = some ⟨1, 12, 5⟩ ∧ romEntry 5 = 0x1305 := by decide
theorem test_lookup6 : romAfter .lookup6 = some ⟨1, 10, 6⟩ ∧ romEntry 6 = 0x1286 := by decide
theorem test_lookup7 : romAfter .lookup7 = some ⟨1, 8, 7⟩ ∧ romEntry 7 = 0x1207 := by decide
theorem test_lookup8 : romAfter .lookup8 = some ⟨1, 7, 8⟩ ∧ romEntry 8 = 0x11C8 := by decide
theorem test_lookup9 : romAfter .lookup9 = some ⟨1, 6, 10⟩ ∧ romEntry 9 = 0x118A := by decide
theorem test_lookup10 : romAfter .lookup10 = some ⟨1, 5, 12⟩ ∧ romEntry 10 = 0x114C := by decide
theorem test_lookup11 : romAfter .lookup11 = some ⟨1, 4, 15⟩ ∧ romEntry 11 = 0x110F := by decide
theorem test_lookup12 : romAfter .lookup12 = some ⟨1, 3, 20⟩ ∧ romEntry 12 = 0x10D4 := by decide
theorem test_lookup13 : romAfter .lookup13 = some ⟨1, 2, 30⟩ ∧ romEntry 13 = 0x109E := by decide
theorem test_lookup14 : romAfter .lookup14 = some ⟨1, 1, 60⟩ ∧ romEntry 14 = 0x107C := by decide
theorem test_lookup15 : romAfter .lookup15 = some ⟨0, 0, 0⟩ ∧ romEntry 15 = 0x0000 := by decide

/-! ### ENCODE (sections 2.2 and 2.5): a word; then a value too large on the last lane and a length too large over
values too large, which is reported first (R139) -/

/-- PE19. -/
theorem test_encode0_ignores_inputs : encAfter (.encode0 63 (Vector.replicate 60 junk)) = some ⟨0, 1, 0⟩ := by decide
/-- PE18. -/
theorem test_encode0_empty : encAfter (.encode0 0 (Vector.replicate 60 0)) = some ⟨0, 1, 0⟩ := by decide
/-- E7. -/
theorem test_encode1_packs :
    encAfter (.encode1 2 (lanesWith [0, 1] junk)) =
      some ⟨0x0000000000000021, 0, 0⟩ := by decide
/-- EV2, ET2. -/
theorem test_encode1_fails :
    encAfter (.encode1 60 (lanesWith (List.replicate 59 1 ++ [2]) junk)) = some ⟨0, 3, 59⟩ ∧
    encAfter (.encode1 61 (Vector.replicate 60 2)) = some ⟨0, 2, 61⟩ := by decide
/-- E13. -/
theorem test_encode2_packs :
    encAfter (.encode2 30 (lanesWith [1, 2, 3, 0, 1, 2, 3, 0, 1, 2, 3, 0, 1, 2, 3, 0, 1, 2, 3, 0, 1, 2, 3, 0, 1, 2,
      3, 0, 1, 2] junk)) =
      some ⟨0x9393939393939392, 0, 0⟩ := by decide
/-- EV6, ET4. -/
theorem test_encode2_fails :
    encAfter (.encode2 30 (lanesWith (List.replicate 29 3 ++ [4]) junk)) = some ⟨0, 3, 29⟩ ∧
    encAfter (.encode2 31 (Vector.replicate 60 4)) = some ⟨0, 2, 31⟩ := by decide
/-- E21. -/
theorem test_encode3_packs :
    encAfter (.encode3 20 (lanesWith [1, 2, 3, 4, 5, 6, 7, 0, 1, 2, 3, 4, 5, 6, 7, 0, 1, 2, 3, 4] junk)) =
      some ⟨0x8D11F58D11F58D13, 0, 0⟩ := by decide
/-- EV10, ET6. -/
theorem test_encode3_fails :
    encAfter (.encode3 20 (lanesWith (List.replicate 19 7 ++ [8]) junk)) = some ⟨0, 3, 19⟩ ∧
    encAfter (.encode3 21 (Vector.replicate 60 8)) = some ⟨0, 2, 21⟩ := by decide
/-- E29. -/
theorem test_encode4_packs :
    encAfter (.encode4 15 (lanesWith [1, 2, 3, 4, 5, 6, 7, 8, 9, 10, 11, 12, 13, 14, 15] junk)) =
      some ⟨0xFEDCBA9876543214, 0, 0⟩ := by decide
/-- EV14, ET8. -/
theorem test_encode4_fails :
    encAfter (.encode4 15 (lanesWith (List.replicate 14 15 ++ [16]) junk)) = some ⟨0, 3, 14⟩ ∧
    encAfter (.encode4 16 (Vector.replicate 60 16)) = some ⟨0, 2, 16⟩ := by decide
/-- E37. -/
theorem test_encode5_packs :
    encAfter (.encode5 12 (lanesWith [1, 2, 3, 4, 5, 6, 7, 8, 9, 10, 11, 12] junk)) =
      some ⟨0x62D4941CC520C415, 0, 0⟩ := by decide
/-- EV18, ET10. -/
theorem test_encode5_fails :
    encAfter (.encode5 12 (lanesWith [31, 31, 31, 31, 31, 31, 31, 31, 31, 31, 31, 32] junk)) = some ⟨0, 3, 11⟩ ∧
    encAfter (.encode5 13 (Vector.replicate 60 32)) = some ⟨0, 2, 13⟩ := by decide
/-- E45. -/
theorem test_encode6_packs :
    encAfter (.encode6 10 (lanesWith [1, 2, 3, 4, 5, 6, 7, 8, 9, 10] junk)) =
      some ⟨0x2892071851030816, 0, 0⟩ := by decide
/-- EV22, ET12. -/
theorem test_encode6_fails :
    encAfter (.encode6 10 (lanesWith [63, 63, 63, 63, 63, 63, 63, 63, 63, 64] junk)) = some ⟨0, 3, 9⟩ ∧
    encAfter (.encode6 11 (Vector.replicate 60 64)) = some ⟨0, 2, 11⟩ := by decide
/-- E53. -/
theorem test_encode7_packs :
    encAfter (.encode7 8 (lanesWith [1, 2, 3, 4, 5, 6, 7, 8] junk)) =
      some ⟨0x0101C305080C1017, 0, 0⟩ := by decide
/-- EV26, ET14. -/
theorem test_encode7_fails :
    encAfter (.encode7 8 (lanesWith [127, 127, 127, 127, 127, 127, 127, 128] junk)) = some ⟨0, 3, 7⟩ ∧
    encAfter (.encode7 9 (Vector.replicate 60 128)) = some ⟨0, 2, 9⟩ := by decide
/-- E61. -/
theorem test_encode8_packs :
    encAfter (.encode8 7 (lanesWith [1, 2, 3, 4, 5, 6, 7] junk)) =
      some ⟨0x0070605040302018, 0, 0⟩ := by decide
/-- EV30, ET16. -/
theorem test_encode8_fails :
    encAfter (.encode8 7 (lanesWith [255, 255, 255, 255, 255, 255, 256] junk)) = some ⟨0, 3, 6⟩ ∧
    encAfter (.encode8 8 (Vector.replicate 60 0x100)) = some ⟨0, 2, 8⟩ := by decide
/-- E69. -/
theorem test_encode9_packs :
    encAfter (.encode9 6 (lanesWith [1, 2, 3, 4, 5, 6] junk)) =
      some ⟨0x0180501003008019, 0, 0⟩ := by decide
/-- EV34, ET18. -/
theorem test_encode9_fails :
    encAfter (.encode9 6 (lanesWith [0x3FF, 0x3FF, 0x3FF, 0x3FF, 0x3FF, 0x400] junk)) = some ⟨0, 3, 5⟩ ∧
    encAfter (.encode9 7 (Vector.replicate 60 0x400)) = some ⟨0, 2, 7⟩ := by decide
/-- E77. -/
theorem test_encode10_packs :
    encAfter (.encode10 5 (lanesWith [1, 2, 3, 4, 5] junk)) =
      some ⟨0x005004003002001A, 0, 0⟩ := by decide
/-- EV38, ET20. -/
theorem test_encode10_fails :
    encAfter (.encode10 5 (lanesWith [0xFFF, 0xFFF, 0xFFF, 0xFFF, 0x1000] junk)) = some ⟨0, 3, 4⟩ ∧
    encAfter (.encode10 6 (Vector.replicate 60 0x1000)) = some ⟨0, 2, 6⟩ := by decide
/-- E85. -/
theorem test_encode11_packs :
    encAfter (.encode11 4 (lanesWith [1, 2, 3, 4] junk)) =
      some ⟨0x0008000C0010001B, 0, 0⟩ := by decide
/-- EV42, ET22. -/
theorem test_encode11_fails :
    encAfter (.encode11 4 (lanesWith [0x7FFF, 0x7FFF, 0x7FFF, 0x8000] junk)) = some ⟨0, 3, 3⟩ ∧
    encAfter (.encode11 5 (Vector.replicate 60 0x8000)) = some ⟨0, 2, 5⟩ := by decide
/-- E93. -/
theorem test_encode12_packs :
    encAfter (.encode12 3 (lanesWith [1, 2, 3] junk)) =
      some ⟨0x000030000200001C, 0, 0⟩ := by decide
/-- EV46, ET24. -/
theorem test_encode12_fails :
    encAfter (.encode12 3 (lanesWith [0xFFFFF, 0xFFFFF, 0x100000] junk)) = some ⟨0, 3, 2⟩ ∧
    encAfter (.encode12 4 (Vector.replicate 60 0x100000)) = some ⟨0, 2, 4⟩ := by decide
/-- E101. -/
theorem test_encode13_packs :
    encAfter (.encode13 2 (lanesWith [1, 2] junk)) =
      some ⟨0x000000080000001D, 0, 0⟩ := by decide
/-- EV50, ET26. -/
theorem test_encode13_fails :
    encAfter (.encode13 2 (lanesWith [0x3FFFFFFF, 0x40000000] junk)) = some ⟨0, 3, 1⟩ ∧
    encAfter (.encode13 3 (Vector.replicate 60 0x40000000)) = some ⟨0, 2, 3⟩ := by decide
/-- E104. -/
theorem test_encode14_packs :
    encAfter (.encode14 1 (lanesWith [0xFFFFFFFFFFFFFFF] junk)) =
      some ⟨0xFFFFFFFFFFFFFFFE, 0, 0⟩ := by decide
/-- EV52, ET28. -/
theorem test_encode14_fails :
    encAfter (.encode14 1 (lanesWith [0x1000000000000000] junk)) = some ⟨0, 3, 0⟩ ∧
    encAfter (.encode14 2 (Vector.replicate 60 0x1000000000000000)) = some ⟨0, 2, 2⟩ := by decide
/-- PE20. -/
theorem test_encode15_ignores_inputs : encAfter (.encode15 3 (lanesWith [1, 2, 3] junk)) = some ⟨0, 1, 0⟩ := by decide
/-- PE21. -/
theorem test_encode15_full :
    encAfter (.encode15 60 (Vector.replicate 60 0xFFFFFFFFFFFFFFFF)) = some ⟨0, 1, 0⟩ := by decide

/-! ### DECODE (section 2.3): the pattern word under each selector; padding bits under selectors 7 and 8 -/

/-- D3. -/
theorem test_decode0 :
    decAfter (.decode0 0x123456789ABCDEF) =
      some ([], true, 1, 0) := by decide
/-- D6. -/
theorem test_decode1 :
    decAfter (.decode1 0x123456789ABCDEF) =
      some ([1, 1, 1, 1, 0, 1, 1, 1, 1, 0, 1, 1, 0, 0, 1, 1, 1, 1, 0, 1, 0, 1, 0, 1, 1, 0, 0, 1, 0, 0, 0, 1, 1, 1, 1,
        0, 0, 1, 1, 0, 1, 0, 1, 0, 0, 0, 1, 0, 1, 1, 0, 0, 0, 1, 0, 0, 1] ++ List.replicate 3 0, true, 0, 0) := by
          decide
/-- D9. -/
theorem test_decode2 :
    decAfter (.decode2 0x123456789ABCDEF) =
      some ([3, 3, 2, 3, 1, 3, 0, 3, 3, 2, 2, 2, 1, 2, 0, 2, 3, 1, 2, 1, 1, 1, 0, 1, 3, 0, 2, 0, 1, 0], true, 0, 0)
        := by decide
/-- D12. -/
theorem test_decode3 :
    decAfter (.decode3 0x123456789ABCDEF) =
      some ([7, 5, 7, 6, 4, 7, 2, 5, 1, 1, 6, 3, 6, 2, 1, 2, 3, 4, 4, 0], true, 0, 0) := by decide
/-- D15. -/
theorem test_decode4 :
    decAfter (.decode4 0x123456789ABCDEF) =
      some ([15, 14, 13, 12, 11, 10, 9, 8, 7, 6, 5, 4, 3, 2, 1], true, 0, 0) := by decide
/-- D18. -/
theorem test_decode5 :
    decAfter (.decode5 0x123456789ABCDEF) =
      some ([15, 15, 19, 23, 26, 4, 30, 12, 5, 26, 8, 2], true, 0, 0) := by decide
/-- D21. -/
theorem test_decode6 :
    decAfter (.decode6 0x123456789ABCDEF) =
      some ([47, 55, 60, 42, 9, 30, 22, 17, 35, 4], true, 0, 0) := by decide
/-- D24. -/
theorem test_decode7 :
    decAfter (.decode7 0x123456789ABCDEF) =
      some ([111, 27, 47, 77, 120, 44, 81, 17], true, 0, 1) := by decide
/-- D27. -/
theorem test_decode8 :
    decAfter (.decode8 0x123456789ABCDEF) =
      some ([239, 205, 171, 137, 103, 69, 35], true, 0, 1) := by decide
/-- D30. -/
theorem test_decode9 :
    decAfter (.decode9 0x123456789ABCDEF) =
      some ([495, 755, 154, 414, 837, 72], true, 0, 0) := by decide
/-- D33. -/
theorem test_decode10 :
    decAfter (.decode10 0x123456789ABCDEF) =
      some ([0xDEF, 0xABC, 0x789, 0x456, 291], true, 0, 0) := by decide
/-- D36. -/
theorem test_decode11 :
    decAfter (.decode11 0x123456789ABCDEF) =
      some ([0x4DEF, 0x1357, 0x159E, 0x91A], true, 0, 0) := by decide
/-- D39. -/
theorem test_decode12 :
    decAfter (.decode12 0x123456789ABCDEF) =
      some ([0xBCDEF, 0x6789A, 0x12345], true, 0, 0) := by decide
/-- D42. -/
theorem test_decode13 :
    decAfter (.decode13 0x123456789ABCDEF) =
      some ([0x9ABCDEF, 0x48D159E], true, 0, 0) := by decide
/-- D45. -/
theorem test_decode14 :
    decAfter (.decode14 0x123456789ABCDEF) =
      some ([0x123456789ABCDEF], true, 0, 0) := by decide
/-- D48. -/
theorem test_decode15 :
    decAfter (.decode15 0x123456789ABCDEF) =
      some ([], true, 1, 0) := by decide
/-- DP1. -/
theorem test_decode7_padding : decAfter (.decode7 0x0101C305080C101) = some ([1, 2, 3, 4, 5, 6, 7, 8], true, 0, 0) :=
    by decide
/-- PD4. -/
theorem test_decode8_padding : decAfter (.decode8 0x001010101010101) = some (List.replicate 7 1, true, 0, 0) := by
    decide
/-- DP9: under selector 6 bits [63:60] belong to the last slot. -/
theorem test_decode6_top_bits :
    decAfter (.decode6 0xF00000000000000) = some (List.replicate 9 0 ++ [60], true, 0, 0) := by decide

/-! ### One step -/

/-- The oldest request is evaluated and leaves the queue (notes/assumptions/3.md). -/
theorem test_step_takes_oldest :
    step { start with requests := [.romAddr 9, .romAddr 2] } =
      .next { start with requests := [.romAddr 2], romCode := 9, romResp := ⟨1, 6, 10⟩ } := rfl

/-- A table word placed at reset is what the first step runs. -/
theorem test_fetch_word : step (State.reset.withFetchWord 8 0b1110) =
    .next { State.reset with romCode := 14, romResp := ⟨1, 1, 60⟩ } := rfl

/-! ### Witnesses: concrete values that meet the hypotheses of each obligation, boundary values where a clause has a
range -/

theorem witness_SelectorTableInvariants : entryFor 1 = some ⟨60, 1⟩ ∧ entryFor 14 = some ⟨1, 60⟩ ∧ 1 < 14 := by decide

theorem witness_RomEntryFields : entryFor (0 : Code).toNat = none ∧ entryFor (14 : Code).toNat = some ⟨1, 60⟩ := by
  decide

theorem witness_EncodePlacesValueInSlot : Valid 12 ∧ encodeWord 12 [1, 2, 3] = .word 0x000030000200001C ∧
    2 < [1, 2, 3].length := by decide

theorem witness_EncodeZeroFills : Valid 8 ∧ encodeWord 8 [1] = .word 0x0000000000000018 ∧ [1].length ≤ 6 ∧
    6 < countOf (8 : Code).toNat := by decide

theorem witness_EncodeComposesWord : Valid 1 ∧ encodeWord 1 [0, 1] = .word 0x0000000000000021 := by decide

theorem witness_EncodeSucceedsExactlyWhenValuesFit : Valid 1 ∧ Valid 14 := by decide

theorem witness_EncodeChecksInOrder :
    ((0 : Code) = 0 ∨ (0 : Code) = 15) ∧
    (Valid 14 ∧ countOf (14 : Code).toNat < [0, 0].length) ∧
    (Valid 13 ∧ [0x3FFFFFFF, 0x40000000].length ≤ countOf (13 : Code).toNat ∧ 1 < [0x3FFFFFFF, 0x40000000].length ∧
      2 ^ widthOf (13 : Code).toNat ≤ [0x3FFFFFFF, 0x40000000].getD 1 0 ∧
      ∀ j < 1, [0x3FFFFFFF, 0x40000000].getD j 0 < 2 ^ widthOf (13 : Code).toNat) := by decide

theorem witness_EncodeCornerCases : Valid 7 ∧ 8 ≤ countOf (7 : Code).toNat ∧
    (List.replicate 8 127).length = countOf (7 : Code).toNat ∧
    (∀ v ∈ List.replicate 8 127, v < 2 ^ widthOf (7 : Code).toNat) ∧
    (List.replicate 9 0).length = countOf (7 : Code).toNat + 1 := by decide

theorem witness_DecodeExtractsSlots : entryFor (bits 0xFFFFFFFFFFFFFFFE 0 4) = some ⟨1, 60⟩ ∧ 0 < 1 := by decide

theorem witness_DecodeLengthFromSelectorOnly : entryFor (bits 0xF000000000000007 0 4) = some ⟨8, 7⟩ ∧
    bits 0xFFFFFFFFFFFFFFF0 0 4 = 0 ∧ bits 0xFFFFFFFFFFFFFFFF 0 4 = 15 := by decide

theorem witness_DecodedValuesFit : 0xFFFFFFFFFFFFFFF ∈ decodeWord 0xFFFFFFFFFFFFFFFE := by decide

theorem witness_DecodeReadsNoOtherBits :
    (entryFor (bits 0xF010101010101018 0 4) = some ⟨7, 8⟩ ∧
      bits 0xF010101010101018 0 60 = bits 0x0010101010101018 0 60) ∧
    (entryFor (bits 0xFFFFFFFFFFFFFFFF 0 4) = none ∧ bits 0xFFFFFFFFFFFFFFFF 0 4 = bits 0x000000000000000F 0 4) ∧
    bits 0xFFFFFFFFFFFFFFF7 0 4 = 7 := by decide

theorem witness_RoundTrip : Valid 12 ∧ [0, 0xFFFFF, 1].length ≤ countOf (12 : Code).toNat ∧
    ∀ v ∈ [0, 0xFFFFF, 1], v < 2 ^ widthOf (12 : Code).toNat := by decide

theorem witness_ReverseRoundTrip :
    wellFormedWord 0x0FFFFFFFFFFFFFF7 = true ∧ selectorOf 0x0FFFFFFFFFFFFFF7 = 7 ∧
    (Valid 7 ∧ (List.replicate 8 127).length = countOf (7 : Code).toNat ∧
      ∀ v ∈ List.replicate 8 127, v < 2 ^ widthOf (7 : Code).toNat) := by decide

theorem witness_TrailingZerosDoNotShow : Valid 12 ∧ [1, 2].length ≤ 3 ∧ 3 ≤ countOf (12 : Code).toNat ∧
    ∀ v ∈ [1, 2], v < 2 ^ widthOf (12 : Code).toNat := by decide

theorem witness_NoSilentTruncation : Valid 8 ∧ encodeWord 8 [200, 13] = .word 0x000000000000DC88 ∧
    ¬ ([255, 256].length ≤ countOf (8 : Code).toNat ∧ ∀ v ∈ [255, 256], v < 2 ^ widthOf (8 : Code).toNat) := by decide

theorem witness_DecodeThenEncodeCanonicalises : selectorOf 0xFFFFFFFFFFFFFFF8 = 8 ∧
    wellFormedWord 0xFFFFFFFFFFFFFFF8 = false ∧ selectorOf 0x0FFFFFFFFFFFFFF7 = 7 ∧
    wellFormedWord 0x0FFFFFFFFFFFFFF7 = true := by decide

theorem witness_InvalidSelectorsThroughBothUnits : selectorOf 0xFFFFFFFFFFFFFFF0 = 0 ∧
    selectorOf 0xFFFFFFFFFFFFFFFF = 15 := by decide

theorem witness_RoundTripLength : Valid 3 ∧ encodeWord 3 [] = .word 0x0000000000000003 := by decide

theorem witness_EncodesAgreeExactly : Valid 12 ∧ [1, 2].length ≤ countOf (12 : Code).toNat ∧
    (∀ v ∈ [1, 2], v < 2 ^ widthOf (12 : Code).toNat) ∧ [1, 2, 0].length ≤ countOf (12 : Code).toNat ∧
    ∀ v ∈ [1, 2, 0], v < 2 ^ widthOf (12 : Code).toNat := by decide

theorem witness_PortEncoderRefinesEncode : Carries 3 (lanesWith [1, 2, 3] junk) [1, 2, 3] ∧
    Carries 63 (Vector.replicate 60 7) (List.replicate 63 7) := by decide

theorem witness_IgnoredLanesDoNotShow :
    (∀ i < (2 : Len).toNat, lane (lanesWith [1, 2] junk) i = lane (lanesWith [1, 2, 3] 0) i) ∧
    entryFor (12 : Code).toNat = some ⟨3, 20⟩ ∧ (2 : Len).toNat ≤ 2 ∧ 2 < 3 := by decide

theorem witness_EncodeInfoRecordsFailure :
    (encPorts 12 3 (lanesWith [1, 2, 3] junk)).status = 0 ∧ (encPorts 0 63 (Vector.replicate 60 junk)).status = 1 ∧
    (encPorts 14 2 (Vector.replicate 60 0)).status = 2 ∧
    (encPorts 1 60 (lanesWith (List.replicate 59 1) 2)).status = 3 := by decide

theorem witness_PadFlagExactly : bits 0xFFFFFFFFFFFFFFF7 0 4 = 7 ∧ bits 0x0FFFFFFFFFFFFFF8 0 4 = 8 := by decide

theorem witness_OkResultIsWellFormed : (encPorts 7 8 (lanesWith (List.replicate 8 127) junk)).status = 0 ∧
    Valid 7 ∧ encodeWord 7 (List.replicate 8 127) = .word 0x0FFFFFFFFFFFFFF7 := by decide

/-- The entries of the fourteen forms that can fail. -/
def entries : List (Nat × Nat) :=
  [(60, 1), (30, 2), (20, 3), (15, 4), (12, 5), (10, 6), (8, 7), (7, 8), (6, 10), (5, 12), (4, 15), (3, 20), (2, 30),
   (1, 60)]

/-- For each form: length exactly `count` with every value the largest that fits, and length 0. -/
theorem witness_EncodeFormsPackFittingLanes : ∀ e ∈ entries,
    ((BitVec.ofNat 6 e.1).toNat = e.1 ∧
      ∀ i < e.1, (lane (Vector.replicate 60 (BitVec.ofNat 64 (2 ^ e.2 - 1))) i).toNat < 2 ^ e.2) ∧
    (0 : Len).toNat ≤ e.1 := by decide

/-- For each form: length `count` + 1. -/
theorem witness_EncodeFormsReportTooManyValues : ∀ e ∈ entries, e.1 < (BitVec.ofNat 6 (e.1 + 1)).toNat := by decide

/-- For each form: length `count`, and the last value the first that does not fit. -/
theorem witness_EncodeFormsReportValueOutOfRange : ∀ e ∈ entries,
    (BitVec.ofNat 6 e.1).toNat ≤ e.1 ∧ e.1 - 1 < (BitVec.ofNat 6 e.1).toNat ∧
    2 ^ e.2 ≤ (lane (lanesOf fun i => if i = e.1 - 1 then BitVec.ofNat 64 (2 ^ e.2) else 0) (e.1 - 1)).toNat ∧
    ∀ j < e.1 - 1,
      (lane (lanesOf fun i => if i = e.1 - 1 then BitVec.ofNat 64 (2 ^ e.2) else 0) j).toNat < 2 ^ e.2 := by decide

/-- PR1, PR5, PR4, PE5: each status the encoder can give. -/
theorem witness_PortRoundTrip :
    (encPorts 10 3 (lanesWith [0xFFF, 1, 2] junk)).status = 0 ∧ (encPorts 15 1 (lanesWith [1] junk)).status = 1 ∧
    (encPorts 9 1 (lanesWith [0x400] junk)).status = 3 ∧ (encPorts 12 4 (lanesWith [1, 2, 3, 4] 0)).status = 2 := by
  decide

theorem witness_StepRunsPresentedRequest :
    ({ start with requests := [.word 0x1E] } : State).requests = .word 0x1E :: [] ∧
    decode ⟨.word, 0x1E⟩ = .ok (.decode14 1) ∧ State.reset.requests = [] := ⟨rfl, rfl, rfl⟩

theorem witness_FetchWordRunsDecodedForm : decodeTableWord 8 0b1001 = some .lookup9 ∧
    decodeTableWord 64 0x1E = some (.decode14 1) := ⟨rfl, rfl⟩

theorem witness_OperationsTouchTheirUnitOnly :
    exec (.decode14 1) start = .next (start.evalDec 0x1E) ∧
    exec (.decode14 1) State.reset = .next (State.reset.evalDec 0x1E) := ⟨rfl, rfl⟩

theorem witness_StepKeepsOutputsSettled :
    (State.reset.presentFirst (.romAddr 14)).Settled ∧
    step (State.reset.presentFirst (.romAddr 14)) = .next (State.reset.evalRom 14) := ⟨by decide, rfl⟩

/-- Two interleavings of one LOOKUP and one DECODE. -/
theorem witness_InterleavingsAreIndistinguishable :
    [Request.romAddr 9, .word 0x1E].filterMap romOf = [Request.word 0x1E, .romAddr 9].filterMap romOf ∧
    [Request.romAddr 9, .word 0x1E].filterMap encOf = [Request.word 0x1E, .romAddr 9].filterMap encOf ∧
    [Request.romAddr 9, .word 0x1E].filterMap decOf = [Request.word 0x1E, .romAddr 9].filterMap decOf :=
  ⟨rfl, rfl, rfl⟩

theorem witness_EncodeOfDecodeIsPattern :
    (15 < 2 ^ Port.romAddr.width ∧ 2 ^ Port.romAddr.width ≤ 16) ∧
    (0xFFFFFFFFFFFFFFFF < 2 ^ Port.word.width ∧ 2 ^ Port.word.width ≤ 0x10000000000000000) := by decide

end Sys2Proof.Tests
end

/-! ## Proofs of the scope family (spec/00_scope.md R14, R17): the ports against the function level, and one step -/

namespace Sys2Proof.Machine

/-! ### What `encodeWord` answers in each of its cases (spec/41_encoder.md R130, R136 to R139) -/

section EncodeWord

variable {sel : Code} {e : Entry} {values : List Nat}

theorem encodeWord_of_noEntry (he : entryFor sel.toNat = none) : encodeWord sel values = .word 0 := by
  simp only [encodeWord, he]

theorem encodeWord_of_tooMany (he : entryFor sel.toNat = some e) (hlen : e.count < values.length) :
    encodeWord sel values = .tooManyValues values.length := by
  simp only [encodeWord, he, if_pos hlen]

theorem encodeWord_of_misfit {i : Nat} (he : entryFor sel.toNat = some e) (hlen : values.length ≤ e.count)
    (hi : i < values.length) (hbig : 2 ^ e.bitWidth ≤ values.getD i 0)
    (hfit : ∀ j < i, values.getD j 0 < 2 ^ e.bitWidth) : encodeWord sel values = .valueOutOfRange i := by
  have hfirst : firstTooLarge e.bitWidth 0 values = some i :=
    firstTooLarge_some.2 ⟨i, hi, (Nat.zero_add i).symm, hbig, hfit⟩
  simp only [encodeWord, he, if_neg hlen.not_gt, hfirst]

theorem encodeWord_of_fits (he : entryFor sel.toNat = some e) (hlen : values.length ≤ e.count)
    (hfit : ∀ v ∈ values, v < 2 ^ e.bitWidth) :
    ∃ w : Word, encodeWord sel values = .word w ∧ w.toNat = sel.toNat + 16 * horner e.bitWidth values := by
  obtain ⟨hnone, _⟩ | ⟨e', he', ⟨hmany, _⟩ | ⟨_, i, hi, hbig, _⟩ | ⟨_, _, hword⟩⟩ := encodeWord_cases sel values
  · simp [he] at hnone
  all_goals obtain rfl : e = e' := Option.some.inj (he.symm.trans he')
  · omega
  · have := hfit (values.getD i 0) (by simp [hi])
    omega
  · exact hword

end EncodeWord

/-! ### How a failure or a word of the function level shows at the encoder's ports -/

theorem encResponseOf_word_of_entry {sel : Code} {e : Entry} (he : entryFor sel.toNat = some e) (w : Word) :
    encResponseOf sel (.word w) = ⟨w, encOk, 0⟩ := by
  simp [encResponseOf, he]

theorem encResponseOf_word_of_noEntry {sel : Code} (he : entryFor sel.toNat = none) (w : Word) :
    encResponseOf sel (.word w) = ⟨w, encInvalidSelector, 0⟩ := by
  simp [encResponseOf, he]

/-! ### The decoder's lanes -/

theorem decodeWord_of_noEntry {w : Word} (he : entryFor (w.toNat % 2 ^ 4) = none) : decodeWord w = [] := by
  rw [decodeWord_eq, he]

theorem decodeWord_of_entry {w : Word} {e : Entry} (he : entryFor (w.toNat % 2 ^ 4) = some e) :
    decodeWord w = (List.range e.count).map fun i => w.toNat / 2 ^ (4 + i * e.bitWidth) % 2 ^ e.bitWidth := by
  rw [decodeWord_eq, he]

theorem laneValues_eq_map {n : Nat} {lanes : Lanes} {f : Nat → Nat} (h : ∀ i < n, (lane lanes i).toNat = f i) :
    laneValues n lanes = (List.range n).map f :=
  List.map_congr_left fun i hi => h i (List.mem_range.1 hi)

theorem lane_replicate_zero (i : Nat) : lane (Vector.replicate 60 0) i = 0 := by
  by_cases hi : i < 60 <;> simp [lane, hi]

/-! ### One step (spec/00_scope.md R17) -/

theorem step_of_noRequest {s : State} (h : s.requests = []) : step s = .next s := by
  simp only [step, State.presented, h]

theorem step_of_request {s : State} {r : Request} {rest : List Request} (h : s.requests = r :: rest) :
    step s = exec (decodeRequest r) { s with requests := rest } := by
  simp only [step, State.presented, h]

theorem step_presentFirst (s : State) (r : Request) : step (s.presentFirst r) = exec (decodeRequest r) s :=
  step_of_request rfl

/-- A pattern is read as a form exactly when it fits its port, and the form is its request's. -/
theorem decode_eq_ok {p : Pattern} {i : Instr} :
    decode p = .ok i ↔ p.WellFormed = true ∧ decodeRequest (requestOf p) = i := by
  unfold decode
  split <;> simp [*]

theorem decodeTableWord_eq_some {nbits w : Nat} {i : Instr} :
    decodeTableWord nbits w = some i ↔ ∃ p, patternOfTableWord nbits w = some p ∧ decode p = .ok i := by
  have hok : ∀ p, (decode p).toOption = some i ↔ decode p = .ok i := fun p => by
    cases decode p <;> simp [Except.toOption]
  simp only [decodeTableWord, Option.bind_eq_some_iff, hok]

theorem State.withFetchWord_of_wellFormed {nbits w : Nat} {p : Pattern} (s : State)
    (hp : patternOfTableWord nbits w = some p) (hwf : p.WellFormed = true) :
    s.withFetchWord nbits w = s.presentFirst (requestOf p) := by
  simp only [State.withFetchWord, hp, hwf, if_true]

end Sys2Proof.Machine

namespace Sys2Proof.Stated

open Machine

/-! ### The sequence that `enc_len` and the lanes carry (spec/10_state.md R26) -/

section Carries

variable {len : Len} {lanes : Lanes} {values : List Nat} {i n : Nat}

theorem Carries.length_eq (h : Carries len lanes values) : values.length = len.toNat := h.1

theorem Carries.getElem? (h : Carries len lanes values) (hi : i < len.toNat) (hlane : i < 60) :
    values[i]? = some (lane lanes i).toNat :=
  h.2 i (lt_min hi hlane)

theorem Carries.getD (h : Carries len lanes values) (hi : i < len.toNat) (hlane : i < 60) :
    values.getD i 0 = (lane lanes i).toNat := by
  simp [List.getD, h.getElem? hi hlane]

/-- Up to sixty values, each of them stands on a lane. -/
theorem Carries.exists_lane (h : Carries len lanes values) (hlen : len.toNat ≤ 60) {v : Nat} (hv : v ∈ values) :
    ∃ i < len.toNat, v = (lane lanes i).toNat := by
  obtain ⟨i, hi⟩ := List.mem_iff_getElem?.1 hv
  have hilen : i < len.toNat := h.length_eq ▸ (List.getElem?_eq_some_iff.1 hi).1
  rw [h.getElem? hilen (by omega)] at hi
  exact ⟨i, hilen, (Option.some.inj hi).symm⟩

/-- The slots of the encoder's word hold the carried values, then zeros (spec/41_encoder.md R134, R142). -/
theorem Carries.placed_eq_pad (h : Carries len lanes values) (hlen : len.toNat ≤ n) (hn : n ≤ 60) :
    placed n len lanes = pad values n := by
  have hv := h.length_eq
  refine List.ext_getElem (by simp [placed, pad, zeros]; omega) fun i hi _ => ?_
  have hin : i < n := by simpa [placed] using hi
  by_cases hil : i < len.toNat
  · have hlane := (List.getElem?_eq_some_iff.1 (h.getElem? hil (by omega))).2
    simp [placed, pad, hil, List.getElem_append_left (hv ▸ hil), hlane]
  · simp [placed, pad, zeros, hil, List.getElem_append_right (show values.length ≤ i by omega)]

end Carries

/-! ### The statements -/

/-- Settles O26, along the four answers of the encoder's ports: in each, the carried sequence meets the matching case
of `encodeWord`, and a packed word is the same number on both sides. -/
theorem portEncoderRefinesEncode : Obligations.PortEncoderRefinesEncode := by
  intro sel len lanes values hc
  have hlen := hc.length_eq
  obtain ⟨he, hp⟩ | ⟨e, he, hcase⟩ := encPorts_cases sel len lanes
  · rw [hp, encodeWord_of_noEntry he, encResponseOf_word_of_noEntry he]
    rfl
  obtain ⟨-, -, -, hcount, -⟩ := entryFor_bounds he
  obtain ⟨hmany, hp⟩ | ⟨hle, i, hi, hbig, hfit, hp⟩ | ⟨hle, hfit, w, hp, hw⟩ := hcase
  case inl =>
    rw [hp, encodeWord_of_tooMany he (by omega), encResponseOf, hlen, BitVec.ofNat_toNat, BitVec.setWidth_eq]
    rfl
  case inr.inl =>
    rw [← hc.getD hi (by omega)] at hbig
    have hfit' : ∀ j < i, values.getD j 0 < 2 ^ e.bitWidth := fun j hj => by
      rw [hc.getD (by omega) (by omega)]
      exact hfit j hj
    rw [hp, encodeWord_of_misfit he (by omega) (by omega) hbig hfit']
    rfl
  case inr.inr =>
    have hfit' : ∀ v ∈ values, v < 2 ^ e.bitWidth := fun v hv => by
      obtain ⟨i, hi, rfl⟩ := hc.exists_lane (by omega) hv
      exact hfit i hi
    obtain ⟨w', hword, hw'⟩ := encodeWord_of_fits he (by omega) hfit'
    have hww : w = w' := by
      apply BitVec.eq_of_toNat_eq
      rw [hw, hw', hc.placed_eq_pad hle hcount, pad, horner_append_zeros]
    rw [hp, hword, encResponseOf_word_of_entry he, hww]
    rfl

/-- Settles O27, along the two answers of the decoder's ports: no entry, and an entry whose `count` fits `dec_len`. -/
theorem portDecoderRefinesDecode : Obligations.PortDecoderRefinesDecode := by
  intro w
  have hbits : bits w 0 4 = w.toNat % 2 ^ 4 := by simp [bits]
  rw [hbits]
  obtain ⟨he, hp⟩ | ⟨e, he, val, hp, hslots, hpast⟩ := decPorts_cases w
  · rw [hp, decodeWord_of_noEntry he, he]
    exact ⟨rfl, rfl, fun i _ _ => lane_replicate_zero i, by simp⟩
  · obtain ⟨-, -, -, hcount, -⟩ := entryFor_bounds he
    have hlen : (BitVec.ofNat 6 e.count).toNat = e.count := by
      rw [BitVec.toNat_ofNat]; omega
    have hdec : (decodeWord w).length = e.count := by simp [decodeWord_of_entry he]
    rw [hp, hdec, he, hlen]
    exact ⟨rfl, (laneValues_eq_map hslots).trans (decodeWord_of_entry he).symm, hpast, by simp⟩

/-- Settles O39: `step` takes the oldest request, and a decoded pattern's form is its request's form. -/
theorem stepRunsPresentedRequest : Obligations.StepRunsPresentedRequest := by
  refine ⟨fun s r rest h => step_of_request h, fun s p i h => ?_, fun s h => step_of_noRequest h⟩
  obtain ⟨-, rfl⟩ := decode_eq_ok.1 h
  exact step_presentFirst s (requestOf p)

/-- Settles O40: a table word that is read as a form is a well-formed pattern, so its request is placed first. -/
theorem fetchWordRunsDecodedForm : Obligations.FetchWordRunsDecodedForm := by
  intro s nbits w i h
  obtain ⟨p, hp, hdec⟩ := decodeTableWord_eq_some.1 h
  obtain ⟨hwf, rfl⟩ := decode_eq_ok.1 hdec
  rw [s.withFetchWord_of_wellFormed hp hwf, step_presentFirst]

end Sys2Proof.Stated

/-! ## Proofs of the state family (spec/10_state.md R20, R23, R24, R34): what an evaluation leaves on the ports, runs,
and the bits of a request -/

namespace Sys2Proof.Machine

/-! ### The stored entries (spec/10_state.md R24) -/

theorem romEntry_of_noEntry {c : Code} (he : entryFor c.toNat = none) : romEntry c = 0 := by
  simp only [romEntry, he]

/-- The three fields of a stored entry, side by side: `count` and `width` fit 6 bits, so nothing is cut off. -/
theorem romEntry_toNat {c : Code} {e : Entry} (he : entryFor c.toNat = some e) :
    (romEntry c).toNat = 2 ^ 12 + e.count * 2 ^ 6 + e.bitWidth := by
  obtain ⟨-, -, -, hcount, -, hwidth, -⟩ := entryFor_bounds he
  simp only [romEntry, he, BitVec.toNat_append, BitVec.toNat_ofNat]
  rw [Nat.mod_eq_of_lt (by omega : e.count < 2 ^ 6), Nat.mod_eq_of_lt (by omega : e.bitWidth < 2 ^ 6),
    ← Nat.shiftLeft_add_eq_or_of_lt (by omega : e.count < 2 ^ 6),
    ← Nat.shiftLeft_add_eq_or_of_lt (by omega : e.bitWidth < 2 ^ 6), Nat.shiftLeft_eq, Nat.shiftLeft_eq]
  omega

/-! ### The units under a selector with no entry -/

theorem romPorts_of_noEntry {c : Code} (he : entryFor c.toNat = none) : romPorts c = ⟨0, 0, 0⟩ := by
  rw [romPorts, romEntry_of_noEntry he]
  rfl

theorem encPorts_of_noEntry {sel : Code} (he : entryFor sel.toNat = none) (len : Len) (lanes : Lanes) :
    encPorts sel len lanes = ⟨0, 1, 0⟩ := by
  obtain ⟨-, hp⟩ | ⟨e, he', -⟩ := encPorts_cases sel len lanes
  · exact hp
  · cases he.symm.trans he'

theorem decPorts_of_noEntry {w : Word} (he : entryFor (w.toNat % 2 ^ 4) = none) :
    decPorts w = ⟨0, Vector.replicate 60 0, 1, 0⟩ := by
  obtain ⟨-, hp⟩ | ⟨e, he', -⟩ := decPorts_cases w
  · exact hp
  · cases he.symm.trans he'

/-! ### One evaluation of a unit, addressed by a request (spec/10_state.md R23)

Every form is the form of its own request, so `exec` has one equation for all 48 forms: `exec_eq_evalRequest`. -/

/-- The unit that a request is addressed to, evaluated on the request's fields. -/
def State.evalRequest (s : State) : Request → State
  | .romAddr c => s.evalRom c
  | .encReq sel len lanes => s.evalEnc sel len lanes
  | .word w => s.evalDec w

section Evaluation

variable (s : State) (c : Code) (len : Len) (lanes : Lanes) (payload : Payload) (r : Request) (i : Instr)

@[simp] theorem State.evalRequest_block : (s.evalRequest r).block = s.block := rfl

theorem exec_decodeRequest_eq_evalRequest : exec (decodeRequest r) s = .next (s.evalRequest r) := by
  rw [exec_decodeRequest]
  cases r <;> rfl

theorem encodeRequest_lookupForm : encodeRequest (lookupForm c) = .romAddr c := by
  induction c using forall_code with
  | h n hn => interval_cases n <;> rfl

theorem encodeRequest_encodeForm : encodeRequest (encodeForm c len lanes) = .encReq c len lanes := by
  induction c using forall_code with
  | h n hn => interval_cases n <;> rfl

theorem encodeRequest_decodeForm : encodeRequest (decodeForm c payload) = .word (wordOf payload c) := by
  induction c using forall_code with
  | h n hn => interval_cases n <;> rfl

/-- The form that a request asks for is asked for by that request alone. -/
theorem encodeRequest_decodeRequest : encodeRequest (decodeRequest r) = r := by
  cases r with
  | romAddr c => exact encodeRequest_lookupForm c
  | encReq sel len lanes => exact encodeRequest_encodeForm sel len lanes
  | word w => rw [decodeRequest, encodeRequest_decodeForm, wordOf_payloadOf_selectorOf]

/-- Each of the 48 forms is the form its own request asks for. -/
theorem decodeRequest_encodeRequest : decodeRequest (encodeRequest i) = i := by
  cases i <;> simp only [encodeRequest, decodeRequest, selectorOf_wordOf, payloadOf_wordOf] <;> rfl

/-- What a form does, in one equation: the unit of its request is evaluated. -/
theorem exec_eq_evalRequest : exec i s = .next (s.evalRequest (encodeRequest i)) := by
  rw [← exec_decodeRequest_eq_evalRequest, decodeRequest_encodeRequest]

/-- All that a step can answer. -/
theorem step_cases {s t : State} (h : step s = .next t) :
    (s.requests = [] ∧ t = s) ∨
    ∃ r rest, s.requests = r :: rest ∧ t = ({ s with requests := rest } : State).evalRequest r := by
  cases hr : s.requests with
  | nil =>
    rw [step_of_noRequest hr] at h
    exact .inl ⟨rfl, by injection h with h; exact h.symm⟩
  | cons r rest =>
    rw [step_of_request hr, exec_decodeRequest_eq_evalRequest] at h
    exact .inr ⟨r, rest, rfl, by injection h with h; exact h.symm⟩

/-- An evaluation settles its own unit and leaves the other two as they were. -/
theorem State.Settled.evalRequest {s : State} (h : s.Settled) (r : Request) : (s.evalRequest r).Settled := by
  obtain ⟨hrom, henc, hdec⟩ := h
  cases r with
  | romAddr c => exact ⟨rfl, henc, hdec⟩
  | encReq sel len lanes => exact ⟨hrom, rfl, hdec⟩
  | word w => exact ⟨hrom, henc, rfl⟩

/-- The waiting requests play no part in an evaluation. -/
theorem State.evalRequest_setRequests (rest : List Request) :
    ({ s with requests := rest } : State).evalRequest r = { s.evalRequest r with requests := rest } := by
  cases r <;> rfl

end Evaluation

end Sys2Proof.Machine

namespace Sys2Proof.Stated

open Machine

/-! ### A form's result (spec/10_state.md R20) -/

/-- After an evaluation the addressed unit shows the answer to the request. -/
theorem shown_evalRequest (i : Instr) (s : State) :
    shown i (s.evalRequest (encodeRequest i)) = answer (encodeRequest i) := by
  unfold shown encode
  cases encodeRequest i <;> rfl

theorem shown_of_exec {i : Instr} {s t : State} (h : exec i s = .next t) : shown i t = answer (encodeRequest i) := by
  rw [exec_eq_evalRequest] at h
  injection h with h
  rw [← h, shown_evalRequest]

/-! ### Whole runs: each unit's ports against the requests addressed to it (spec/20_memory.md R48) -/

/-- A run evaluates the requests one after the other and leaves none waiting. -/
theorem runOf_eq (rs : List Request) (s : State) :
    runOf s rs = .next { rs.foldl State.evalRequest s with requests := [] } := by
  induction rs generalizing s with
  | nil => rfl
  | cons r rs ih =>
    have hstep : step { s with requests := r :: rs } = .next { s.evalRequest r with requests := rs } := by
      change step (({ s with requests := rs } : State).presentFirst r) = _
      rw [step_presentFirst, exec_decodeRequest_eq_evalRequest, State.evalRequest_setRequests]
    calc runOf s (r :: rs) = runOf (s.evalRequest r) rs := run_succ rs.length _ _ hstep
      _ = _ := ih _

/-- One induction for the three units: if an evaluation sets the signals `port` from the request's `input` and keeps
them when the request has none, a run leaves them as its last request with such an input sets them. -/
theorem foldl_evalRequest_last {α β : Type} {port : State → α} {input : Request → Option β} {result : β → α}
    (hport : ∀ s r, port (s.evalRequest r) = (input r).elim (port s) result) (rs : List Request) (s : State) :
    port (rs.foldl State.evalRequest s) = (rs.filterMap input).getLast?.elim (port s) result := by
  induction rs generalizing s with
  | nil => rfl
  | cons r rs ih =>
    rw [List.foldl_cons, ih, hport]
    cases hr : input r with
    | none => rw [List.filterMap_cons_none hr, Option.elim_none]
    | some b =>
      rw [List.filterMap_cons_some hr, List.getLast?_cons]
      cases (rs.filterMap input).getLast? <;> rfl

/-- The signals of the selector table unit (spec/10_state.md R25). -/
def romSignals (s : State) : Code × RomResponse := (s.romCode, s.romResp)

/-- The signals of the encoder (spec/10_state.md R26, R27). -/
def encSignals (s : State) : (Code × Len × Lanes) × EncResponse := ((s.encSel, s.encLen, s.encVal), s.encResp)

/-- The signals of the decoder (spec/10_state.md R28, R29). -/
def decSignals (s : State) : Word × DecResponse := (s.decWord, s.decResp)

theorem romSignals_evalRequest (s : State) (r : Request) :
    romSignals (s.evalRequest r) = (romOf r).elim (romSignals s) fun c => (c, romPorts c) := by
  cases r <;> rfl

theorem encSignals_evalRequest (s : State) (r : Request) :
    encSignals (s.evalRequest r) =
      (encOf r).elim (encSignals s) fun x => (x, encPorts x.1 x.2.1 x.2.2) := by
  cases r <;> rfl

theorem decSignals_evalRequest (s : State) (r : Request) :
    decSignals (s.evalRequest r) = (decOf r).elim (decSignals s) fun w => (w, decPorts w) := by
  cases r <;> rfl

end Sys2Proof.Stated

namespace Sys2Proof

open Machine

/-! ### A pattern is its request's pattern (spec/30_encoding.md R63 to R65) -/

/-- Cutting a number into 64-bit lanes and joining them again keeps the bits below the last lane's top. -/
theorem laneBits_ofFn (n b : Nat) :
    laneBits (List.ofFn fun i : Fin n => BitVec.ofNat 64 (b / 2 ^ (64 * i.val))) = b % 2 ^ (64 * n) := by
  induction n generalizing b with
  | zero => simp [laneBits, Nat.mod_one]
  | succ n ih =>
    have htail : (fun i : Fin n => BitVec.ofNat 64 (b / 2 ^ (64 * i.succ.val))) =
        fun i => BitVec.ofNat 64 (b / 2 ^ 64 / 2 ^ (64 * i.val)) := by
      funext i
      rw [Fin.val_succ, two_pow_lanes, Nat.div_div_eq_div_mul]
    rw [List.ofFn_succ, laneBits_cons, htail, ih, two_pow_lanes, Nat.mod_mul]
    simp

/-- The lanes that `requestOf` reads from an ENCODE request's number are the number's bits above `enc_len`. -/
theorem laneBits_requestLanes {b : Nat} (h : b / 2 ^ 10 < 2 ^ (64 * 60)) :
    laneBits (lanesOf fun i => BitVec.ofNat 64 (b >>> (10 + 64 * i))).toList = b / 2 ^ 10 := by
  rw [← Nat.mod_eq_of_lt h, ← laneBits_ofFn, lanesOf, Vector.toList_ofFn]
  simp only [Nat.shiftRight_eq_div_pow, pow_add, Nat.div_div_eq_div_mul]

/-- The three fields that `requestOf` cuts an ENCODE request's number into give the number back. -/
theorem bits_requestOf_encReq {b : Nat} (h : b < 2 ^ Port.encReq.width) :
    (patternOf (requestOf ⟨.encReq, b⟩)).bits = b := by
  have hlanes : b / 2 ^ 10 < 2 ^ (64 * 60) := by
    rw [two_pow_width_encReq] at h
    generalize (2 : Nat) ^ (64 * 60) = P at *
    omega
  simp only [requestOf]
  rw [bits_encReq, laneBits_requestLanes hlanes, BitVec.toNat_ofNat, BitVec.toNat_ofNat, Nat.shiftRight_eq_div_pow]
  omega

/-- A number that fits its port is the number of the request that its wires carry. -/
theorem patternOf_requestOf {p : Pattern} (h : p.bits < 2 ^ p.port.width) : patternOf (requestOf p) = p := by
  obtain ⟨port, b⟩ := p
  cases port with
  | romAddr => exact congrArg (Pattern.mk .romAddr) (Nat.mod_eq_of_lt h)
  | word => exact congrArg (Pattern.mk .word) (Nat.mod_eq_of_lt h)
  | encReq => exact congrArg (Pattern.mk .encReq) (bits_requestOf_encReq h)

end Sys2Proof

namespace Sys2Proof.Stated

open Machine

/-! ### The statements -/

/-- Settles O3: with no entry nothing is stored, and a row's count and width fit their fields. -/
theorem romEntryFields : Obligations.RomEntryFields := by
  refine fun c => ⟨romEntry_of_noEntry, fun e he => ?_⟩
  obtain ⟨-, -, -, hcount, -, hwidth, -⟩ := entryFor_bounds he
  exact ⟨romEntry_toNat he, by omega, by omega⟩

/-- Settles O43: at power-up each unit is asked for selector 0, which has no entry. -/
theorem resetOutputsFollowInputs : Obligations.ResetOutputsFollowInputs :=
  ⟨(romPorts_of_noEntry (c := 0) rfl).symm, (encPorts_of_noEntry (sel := 0) rfl _ _).symm,
    (decPorts_of_noEntry (w := 0) rfl).symm⟩

/-- Settles O44: a step changes nothing or evaluates one unit, which settles that unit and no other. -/
theorem stepKeepsOutputsSettled : Obligations.StepKeepsOutputsSettled := by
  intro s t hs h
  obtain ⟨-, rfl⟩ | ⟨r, rest, -, rfl⟩ := step_cases h
  · exact hs
  · have hrest : ({ s with requests := rest } : State).Settled := hs
    exact hrest.evalRequest r

/-- Settles O45: the run is a fold of evaluations, and each unit's signals follow the last request addressed to it. -/
theorem runShowsLastRequestOfEachUnit : Obligations.RunShowsLastRequestOfEachUnit := by
  intro s rs
  have hrom := foldl_evalRequest_last romSignals_evalRequest rs s
  have henc := foldl_evalRequest_last encSignals_evalRequest rs s
  have hdec := foldl_evalRequest_last decSignals_evalRequest rs s
  refine ⟨_, runOf_eq rs s, rfl, ?_, ?_, ?_⟩
  · cases hlast : (rs.filterMap romOf).getLast? <;> simpa [hlast, romSignals] using hrom
  · obtain hlast | ⟨⟨sel, len, lanes⟩, hlast⟩ := (rs.filterMap encOf).getLast?.eq_none_or_eq_some <;>
      simpa [hlast, encSignals, and_assoc] using henc
  · cases hlast : (rs.filterMap decOf).getLast? <;> simpa [hlast, decSignals] using hdec

/-- Settles O48: a pattern that fits its port is its own request's pattern, and a request is its form's request. -/
theorem encodeOfDecodeIsPattern : Obligations.EncodeOfDecodeIsPattern := by
  refine fun p => ⟨fun h => ⟨_, decode_eq_ok.2 ⟨(wellFormed_iff p).2 h, rfl⟩, ?_⟩, fun h => ?_⟩
  · rw [encode, encodeRequest_decodeRequest, patternOf_requestOf h]
  · rw [decode, if_neg fun hwf => h.not_gt ((wellFormed_iff p).1 hwf)]

/-- Settles O51: every form evaluates its own request's unit, whose outputs the request alone gives. -/
theorem blockKeepsNoState : Obligations.BlockKeepsNoState :=
  ⟨fun _ _ => rfl,
    fun i s => ⟨_, exec_eq_evalRequest s i, s.evalRequest_block _, shown_evalRequest i s⟩,
    fun _ _ _ _ _ _ _ hu hv => (shown_of_exec hu).trans (shown_of_exec hv).symm⟩

end Sys2Proof.Stated

/-! ## Proofs of the memory family (spec/20_memory.md R48): interleavings of the units' requests -/

namespace Sys2Proof.Stated

open Machine

/-- The three units' signals and the waiting requests are all that a state holds: the block itself keeps nothing
(spec/10_state.md R20). -/
theorem setRequests_eq_of_signals {s t : State} (rest : List Request) (hrom : romSignals s = romSignals t)
    (henc : encSignals s = encSignals t) (hdec : decSignals s = decSignals t) :
    ({ s with requests := rest } : State) = { t with requests := rest } := by
  cases s
  cases t
  simp only [romSignals, encSignals, decSignals, Prod.mk.injEq] at hrom henc hdec
  obtain ⟨rfl, rfl⟩ := hrom
  obtain ⟨⟨rfl, rfl, rfl⟩, rfl⟩ := henc
  obtain ⟨rfl, rfl⟩ := hdec
  rfl

/-- What a run leaves on a unit's signals depends on the requests to that unit alone: `port`, `input` and `result` are
as in `foldl_evalRequest_last`. -/
theorem foldl_evalRequest_congr {α β : Type} {port : State → α} {input : Request → Option β} {result : β → α}
    (hport : ∀ s r, port (s.evalRequest r) = (input r).elim (port s) result) (s : State) {rs rs' : List Request}
    (h : rs.filterMap input = rs'.filterMap input) :
    port (rs.foldl State.evalRequest s) = port (rs'.foldl State.evalRequest s) := by
  rw [foldl_evalRequest_last hport, foldl_evalRequest_last hport, h]

/-- Settles O46: a run is a fold of evaluations that leaves no request waiting, and each unit's signals depend on that
unit's own requests, so the two runs end with the same signals. -/
theorem interleavingsAreIndistinguishable : Obligations.InterleavingsAreIndistinguishable := by
  intro s rs rs' hrom henc hdec
  rw [runOf_eq, runOf_eq]
  exact congrArg Host.Outcome.next (setRequests_eq_of_signals []
    (foldl_evalRequest_congr romSignals_evalRequest s hrom)
    (foldl_evalRequest_congr encSignals_evalRequest s henc)
    (foldl_evalRequest_congr decSignals_evalRequest s hdec))

end Sys2Proof.Stated

/-! ## Proofs of the encoding family (spec/30_encoding.md R60, R63 to R65): a request is read back from its bits -/

namespace Sys2Proof

open Machine

/-- Above `enc_sel` and `enc_len` an ENCODE request's number is its lanes. -/
theorem bits_encReq_lanes (sel : Code) (len : Len) (lanes : Lanes) :
    (patternOf (.encReq sel len lanes)).bits / 2 ^ 10 = laneBits lanes.toList := by
  have hsel := sel.isLt
  have hlen := len.isLt
  rw [bits_encReq]
  omega

/-- Lane i of the port is the i-th group of 64 bits of its number. -/
theorem ofNat_laneBits_slice (lanes : Lanes) (i : Nat) :
    BitVec.ofNat 64 (laneBits lanes.toList / 2 ^ (64 * i)) = lane lanes i := by
  apply BitVec.eq_of_toNat_eq
  rw [BitVec.toNat_ofNat, laneBits_slice, lane, Vector.getElem?_toList]

/-- The three fields of an ENCODE request are cut from its number as they were put there (R64). -/
theorem requestOf_patternOf_encReq (sel : Code) (len : Len) (lanes : Lanes) :
    requestOf (patternOf (.encReq sel len lanes)) = .encReq sel len lanes := by
  have hbits := bits_encReq sel len lanes
  have hlanes := bits_encReq_lanes sel len lanes
  change Request.encReq _ _ _ = _
  generalize (patternOf (.encReq sel len lanes)).bits = b at *
  have hsel : BitVec.ofNat 4 b = sel := by
    apply BitVec.eq_of_toNat_eq
    have := sel.isLt
    rw [BitVec.toNat_ofNat]
    omega
  have hlen : BitVec.ofNat 6 (b >>> 4) = len := by
    apply BitVec.eq_of_toNat_eq
    have := sel.isLt
    have := len.isLt
    rw [BitVec.toNat_ofNat, Nat.shiftRight_eq_div_pow]
    omega
  have hval : (lanesOf fun i => BitVec.ofNat 64 (b >>> (10 + 64 * i))) = lanes := lanes_ext fun i hi => by
    rw [lane_lanesOf hi, Nat.shiftRight_eq_div_pow, pow_add, ← Nat.div_div_eq_div_mul, hlanes, ofNat_laneBits_slice]
  rw [hsel, hlen, hval]

/-- The request that a pattern's wires carry is the one the pattern was written from (R63 to R65). -/
theorem requestOf_patternOf (r : Request) : requestOf (patternOf r) = r := by
  cases r with
  | romAddr c => simp [patternOf, requestOf]
  | encReq sel len lanes => exact requestOf_patternOf_encReq sel len lanes
  | word w => simp [patternOf, requestOf]

end Sys2Proof

namespace Sys2Proof.Stated

open Machine

/-- Settles O47: a form's pattern fits its port, its wires carry the form's request, and the request asks for the
form. -/
theorem decodeOfEncodeIsInstruction : Obligations.DecodeOfEncodeIsInstruction := fun i =>
  decode_eq_ok.2 ⟨patternOf_wellFormed (encodeRequest i), by
    rw [encode, requestOf_patternOf, decodeRequest_encodeRequest]⟩

/-- Settles O12: the two fields of a word are disjoint and cover it, so shift and mask are the slices. -/
theorem wordIsSelectorAndPayload : Obligations.WordIsSelectorAndPayload := by
  refine ⟨fun w => ⟨?_, ?_, wordOf_payloadOf_selectorOf w⟩,
    fun p s => ⟨?_, selectorOf_wordOf p s, payloadOf_wordOf p s⟩⟩
  · rw [selectorOf_toNat]
    exact (Nat.and_two_pow_sub_one_eq_mod w.toNat 4).symm
  · rw [payloadOf_toNat, Nat.shiftRight_eq_div_pow]
  · rw [wordOf, BitVec.toNat_append, Nat.or_comm]

/-- Settles O49: the first six patterns are the encoded forms, and the last sets a bit outside its port. -/
theorem writtenOutRequestsDecode : Obligations.WrittenOutRequestsDecode :=
  ⟨decodeOfEncodeIsInstruction .lookup0, decodeOfEncodeIsInstruction .lookup9,
    decodeOfEncodeIsInstruction .lookup15, decodeOfEncodeIsInstruction (.decode12 0x000030000200001),
    decodeOfEncodeIsInstruction (.decode7 0xFFFFFFFFFFFFFFF),
    decodeOfEncodeIsInstruction (.encode10 0 (Vector.replicate 60 0)),
    (encodeOfDecodeIsPattern ⟨.romAddr, 0b10000⟩).2 (by decide)⟩

end Sys2Proof.Stated

/-! ## Proofs of the selector table family (spec/40_selector_table.md R100 to R103): the rows, and the LOOKUP forms -/

namespace Sys2Proof.Machine

/-! ### The table read through its rows (R100, R101) -/

/-- Every row of the table is what its code answers: no earlier row has the same code. -/
theorem entryFor_of_row : ∀ row ∈ canonicalTable, entryFor row.1 = some row.2 := by decide

theorem entryFor_eq_some_iff {code : Nat} {e : Entry} : entryFor code = some e ↔ (code, e) ∈ canonicalTable :=
  ⟨entryFor_rows, entryFor_of_row (code, e)⟩

theorem entryFor_eq_none_iff {code : Nat} : entryFor code = none ↔ code = 0 ∨ 14 < code := by
  constructor
  · intro hnone
    by_contra hvalid
    obtain ⟨e, he⟩ := entryFor_valid (code := code) (by omega) (by omega)
    cases hnone.symm.trans he
  · intro hout
    refine Option.eq_none_iff_forall_ne_some.2 fun e he => ?_
    obtain ⟨hlow, hhigh, -⟩ := entryFor_bounds he
    omega

/-! ### What the rows have in common (R102) -/

/-- Codes 7 and 8 leave four payload bits unused, every other entry none; no slot more would fit (R102 (a), (c)). -/
theorem entryFor_product {code : Nat} {e : Entry} (he : entryFor code = some e) :
    (e.count * e.bitWidth = if code = 7 ∨ code = 8 then 56 else 60) ∧ e.count = 60 / e.bitWidth := by
  have rows : ∀ row ∈ canonicalTable,
      (row.2.count * row.2.bitWidth = if row.1 = 7 ∨ row.1 = 8 then 56 else 60) ∧
        row.2.count = 60 / row.2.bitWidth := by decide
  exact rows _ (entryFor_rows he)

/-- A higher code has wider slots and fewer of them (R102 (d)). -/
theorem entryFor_strict {c d : Nat} {e f : Entry} (he : entryFor c = some e) (hf : entryFor d = some f)
    (hlt : c < d) : e.bitWidth < f.bitWidth ∧ f.count < e.count := by
  have rows : ∀ row ∈ canonicalTable, ∀ row' ∈ canonicalTable, row.1 < row'.1 →
      row.2.bitWidth < row'.2.bitWidth ∧ row'.2.count < row.2.count := by decide
  exact rows _ (entryFor_rows he) _ (entryFor_rows hf) hlt

/-- The widths present are the width column of the table (R102 (e)). -/
theorem exists_entryFor_width_iff {w : Nat} :
    (∃ code e, entryFor code = some e ∧ e.bitWidth = w) ↔ w ∈ canonicalTable.map fun row => row.2.bitWidth := by
  simp only [entryFor_eq_some_iff, List.mem_map, Prod.exists]

/-! ### The outputs under a code with an entry (R103) -/

/-- The three fields of the stored entry on the three outputs; each fits its port, so the numbers are unchanged. -/
theorem romPorts_of_entry {c : Code} {e : Entry} (he : entryFor c.toNat = some e) :
    romPorts c = ⟨1, BitVec.ofNat 6 e.count, BitVec.ofNat 6 e.bitWidth⟩ := by
  have hbits := romEntry_toNat he
  have hvalid : (1 : BitVec 1).toNat = 1 := rfl
  obtain ⟨-, -, -, hcount, -, hwidth, -⟩ := entryFor_bounds he
  simp only [romPorts, RomResponse.mk.injEq, ← BitVec.toNat_inj, BitVec.extractLsb'_toNat, BitVec.toNat_ofNat,
    Nat.shiftRight_eq_div_pow, hbits, hvalid]
  omega

end Sys2Proof.Machine

namespace Sys2Proof.Stated

open Machine

/-- A form that asks for code c shows the outputs of the selector table unit at c, and changes nothing else. -/
theorem lookupGives_of_romPorts {i : Instr} {c : Code} {valid : BitVec 1} {count width : Len}
    (hi : encodeRequest i = .romAddr c) (hports : romPorts c = ⟨valid, count, width⟩) :
    LookupGives i c valid count width := by
  intro s
  rw [exec_eq_evalRequest, hi, ← hports]
  rfl

theorem lookupGives_of_entry {i : Instr} {c : Code} {count width : Nat} (hi : encodeRequest i = .romAddr c)
    (he : entryFor c.toNat = some ⟨count, width⟩) :
    LookupGives i c 1 (BitVec.ofNat 6 count) (BitVec.ofNat 6 width) :=
  lookupGives_of_romPorts hi (romPorts_of_entry he)

theorem lookupGives_of_noEntry {i : Instr} {c : Code} (hi : encodeRequest i = .romAddr c)
    (he : entryFor c.toNat = none) : LookupGives i c 0 0 0 :=
  lookupGives_of_romPorts hi (romPorts_of_noEntry he)

/-! ### The statements -/

/-- Settles O1: the rows are read off the table, and a code has no entry exactly outside 1 to 14. -/
theorem selectorTableIsCanonical : Obligations.SelectorTableIsCanonical := by
  refine ⟨rfl, rfl, rfl, rfl, rfl, rfl, rfl, rfl, rfl, rfl, rfl, rfl, rfl, rfl, fun code => ?_⟩
  rw [entryFor_eq_none_iff]
  omega

/-- Settles O2: an entry is a row, any two rows are ordered as their codes, and the widths are the rows' widths. -/
theorem selectorTableInvariants : Obligations.SelectorTableInvariants := by
  refine ⟨fun code e he => ?_, fun _ _ _ _ => entryFor_strict,
    fun _ => exists_entryFor_width_iff⟩
  obtain ⟨hlow, hhigh, hcount, hcount', hwidth, hwidth', hfits⟩ := entryFor_bounds he
  obtain ⟨hproduct, hquotient⟩ := entryFor_product he
  exact ⟨hlow, hhigh, hfits, hproduct, hcount, hcount', hwidth, hwidth', hquotient⟩

/-- Settles O4: each form asks for its own code, which shows its row of O1, or zeros where there is no entry. -/
theorem lookupFormsAnswerTable : Obligations.LookupFormsAnswerTable := by
  obtain ⟨h1, h2, h3, h4, h5, h6, h7, h8, h9, h10, h11, h12, h13, h14, habsent⟩ := selectorTableIsCanonical
  exact ⟨lookupGives_of_noEntry rfl ((habsent 0).2 (.inl rfl)), lookupGives_of_entry rfl h1,
    lookupGives_of_entry rfl h2, lookupGives_of_entry rfl h3, lookupGives_of_entry rfl h4,
    lookupGives_of_entry rfl h5, lookupGives_of_entry rfl h6, lookupGives_of_entry rfl h7,
    lookupGives_of_entry rfl h8, lookupGives_of_entry rfl h9, lookupGives_of_entry rfl h10,
    lookupGives_of_entry rfl h11, lookupGives_of_entry rfl h12, lookupGives_of_entry rfl h13,
    lookupGives_of_entry rfl h14, lookupGives_of_noEntry rfl ((habsent 15).2 (.inr (.inl rfl)))⟩

end Sys2Proof.Stated

/-! ## Proofs of the encoder family (spec/41_encoder.md R132 to R145, R150 to R165): the packed word, its fields, and
the ENCODE forms -/

namespace Sys2Proof.Machine

/-! ### A packed word: the selector under a payload of fitting values (R133 to R135) -/

section PackedWord

variable {s : Code} {b : Nat} {vs : List Nat} {w : Word}

theorem packed_selector (hw : w.toNat = s.toNat + 16 * horner b vs) : w.toNat % 2 ^ 4 = s.toNat := by
  have := s.isLt
  omega

theorem packed_payload (hw : w.toNat = s.toNat + 16 * horner b vs) : w.toNat / 2 ^ 4 = horner b vs := by
  have := s.isLt
  omega

/-- Slot i holds value i, and 0 past the values (R133, R134). -/
theorem packed_slot (hw : w.toNat = s.toNat + 16 * horner b vs) (hfit : ∀ v ∈ vs, v < 2 ^ b) (i : Nat) :
    w.toNat / 2 ^ (4 + i * b) % 2 ^ b = vs.getD i 0 := by
  rw [pow_add, ← Nat.div_div_eq_div_mul, packed_payload hw, horner_slot i hfit]

/-- Nothing stands above the last slot (R134). -/
theorem packed_padding (hw : w.toNat = s.toNat + 16 * horner b vs) (hfit : ∀ v ∈ vs, v < 2 ^ b) {n : Nat}
    (hlen : vs.length ≤ n) : w.toNat / 2 ^ (4 + n * b) = 0 := by
  have hlt : horner b vs < 2 ^ (n * b) :=
    (horner_lt hfit).trans_le (Nat.pow_le_pow_right (by norm_num) (Nat.mul_le_mul_right b hlen))
  rw [pow_add, ← Nat.div_div_eq_div_mul, packed_payload hw, Nat.div_eq_of_lt hlt]

end PackedWord

/-- A payload whose n values are all the largest that fits is all ones (R144 (d)). -/
theorem horner_replicate_max (b n : Nat) : horner b (List.replicate n (2 ^ b - 1)) = 2 ^ (n * b) - 1 := by
  induction n with
  | zero => simp [horner]
  | succ n ih =>
    have hb : 1 ≤ 2 ^ b := Nat.one_le_two_pow
    have hn : 2 ^ b ≤ 2 ^ b * 2 ^ (n * b) := Nat.le_mul_of_pos_right _ (by positivity)
    rw [List.replicate_succ, horner, ih, Nat.succ_mul, Nat.add_comm (n * b), pow_add, Nat.mul_sub_one]
    omega

/-- `encodeWord_cases` and `encPorts_cases`, for a selector whose entry is known. -/
theorem answer_of_entry {code : Nat} {e : Entry} {noEntry : Prop} {answers : Entry → Prop}
    (he : entryFor code = some e)
    (h : (entryFor code = none ∧ noEntry) ∨ ∃ e', entryFor code = some e' ∧ answers e') : answers e := by
  obtain ⟨hnone, -⟩ | ⟨e', he', h⟩ := h
  · cases he.symm.trans hnone
  · obtain rfl : e = e' := Option.some.inj (he.symm.trans he')
    exact h

/-! ### When an encode gives a word, and which (R130) -/

section EncodeWord

variable {s : Code} {e : Entry} {values : List Nat} {w : Word}

/-- A word comes out exactly when the length and every value fit, and it is the packed one. -/
theorem encodeWord_eq_word_iff (he : entryFor s.toNat = some e) :
    encodeWord s values = .word w ↔
      values.length ≤ e.count ∧ (∀ v ∈ values, v < 2 ^ e.bitWidth) ∧
        w.toNat = s.toNat + 16 * horner e.bitWidth values := by
  constructor
  · intro h
    obtain ⟨-, hr⟩ | ⟨-, i, -, -, -, hr⟩ | ⟨hlen, hfit, w', hr, hw'⟩ :=
      answer_of_entry he (encodeWord_cases s values) <;> cases h.symm.trans hr
    exact ⟨hlen, hfit, hw'⟩
  · rintro ⟨hlen, hfit, hw⟩
    obtain ⟨w', hr, hw'⟩ := encodeWord_of_fits he hlen hfit
    rw [hr, BitVec.eq_of_toNat_eq (hw'.trans hw.symm)]

theorem exists_encodeWord_eq_word_iff (he : entryFor s.toNat = some e) :
    (∃ w, encodeWord s values = .word w) ↔ values.length ≤ e.count ∧ ∀ v ∈ values, v < 2 ^ e.bitWidth := by
  constructor
  · rintro ⟨w, h⟩
    obtain ⟨hlen, hfit, -⟩ := (encodeWord_eq_word_iff he).1 h
    exact ⟨hlen, hfit⟩
  · rintro ⟨hlen, hfit⟩
    obtain ⟨w, h, -⟩ := encodeWord_of_fits he hlen hfit
    exact ⟨w, h⟩

theorem mem_append_zeros_lt {b n : Nat} (hfit : ∀ v ∈ values, v < 2 ^ b) : ∀ v ∈ values ++ zeros n, v < 2 ^ b := by
  intro v hv
  obtain hv | hv := List.mem_append.1 hv
  · exact hfit v hv
  · rw [List.eq_of_mem_replicate hv]
    positivity

/-- Explicit zeros up to `count` do not show, whatever the encode answers (R134, R144 (c)). -/
theorem encodeWord_append_zeros (he : entryFor s.toNat = some e) :
    encodeWord s (values ++ zeros (e.count - values.length)) = encodeWord s values := by
  have hlength (hlen : values.length ≤ e.count) :
      (values ++ zeros (e.count - values.length)).length = e.count := by
    rw [List.length_append, zeros, List.length_replicate, Nat.add_sub_cancel' hlen]
  obtain ⟨hmany, -⟩ | ⟨hlen, i, hi, hbig, hlow, hr⟩ | ⟨hlen, hfit, w, hr, hw⟩ :=
    answer_of_entry he (encodeWord_cases s values)
  · rw [Nat.sub_eq_zero_of_le hmany.le, zeros, List.replicate_zero, List.append_nil]
  · have hget (j : Nat) (hj : j < values.length) :
        (values ++ zeros (e.count - values.length)).getD j 0 = values.getD j 0 :=
      List.getD_append _ _ _ _ hj
    rw [hr]
    refine encodeWord_of_misfit he (hlength hlen).le (by rw [hlength hlen]; omega) ?_ fun j hj => ?_
    · rwa [hget i hi]
    · rw [hget j (by omega)]
      exact hlow j hj
  · rw [hr, encodeWord_eq_word_iff he, horner_append_zeros]
    exact ⟨(hlength hlen).le, mem_append_zeros_lt hfit, hw⟩

/-- With no values the word is the bare selector (R144 (a)). -/
theorem encodeWord_nil (he : entryFor s.toNat = some e) : encodeWord s [] = .word (s.setWidth 64) := by
  rw [encodeWord_eq_word_iff he]
  refine ⟨Nat.zero_le _, by simp, ?_⟩
  rw [BitVec.toNat_setWidth_of_le (by norm_num), horner, Nat.mul_zero, Nat.add_zero]

theorem encodeWord_zeros (he : entryFor s.toNat = some e) {k : Nat} (hk : k ≤ e.count) :
    encodeWord s (zeros k) = .word (s.setWidth 64) := by
  obtain ⟨-, -, hw⟩ := (encodeWord_eq_word_iff he).1 (encodeWord_nil he)
  rw [encodeWord_eq_word_iff he, ← List.nil_append (zeros k), horner_append_zeros]
  exact ⟨by simpa [zeros] using hk, mem_append_zeros_lt (by simp), hw⟩

/-- All slots maximal: every payload bit of a slot is 1 (R144 (d)). -/
theorem encodeWord_replicate_max (he : entryFor s.toNat = some e) :
    ∃ w, encodeWord s (List.replicate e.count (2 ^ e.bitWidth - 1)) = .word w ∧
      w.toNat = s.toNat + 16 * (2 ^ (e.count * e.bitWidth) - 1) := by
  rw [← horner_replicate_max]
  refine encodeWord_of_fits he (by rw [List.length_replicate]) fun v hv => ?_
  rw [List.eq_of_mem_replicate hv]
  exact Nat.sub_one_lt (by positivity)

/-- A valid selector is not 0, so neither is a word that carries it (R144 (g)). -/
theorem encodeWord_ne_zero (he : entryFor s.toNat = some e) : encodeWord s values ≠ .word 0 := by
  intro h
  obtain ⟨-, -, hw⟩ := (encodeWord_eq_word_iff he).1 h
  obtain ⟨hs, -⟩ := entryFor_bounds he
  have hzero : (0 : Word).toNat = 0 := rfl
  omega

end EncodeWord

theorem wellFormedWord_iff {w : Word} {e : Entry} (he : entryFor (w.toNat % 2 ^ 4) = some e) :
    wellFormedWord w = true ↔ w.toNat / 2 ^ (4 + e.count * e.bitWidth) = 0 := by
  simp only [wellFormedWord, selectorOf_toNat, he, beq_iff_eq, ← BitVec.toNat_inj,
    BitVec.toNat_ushiftRight, Nat.shiftRight_eq_div_pow, padLsb, BitVec.ofNat_eq_ofNat, BitVec.toNat_zero]

/-- A packed word has its selector's entry and no padding bit (spec/30_encoding.md R76). -/
theorem wellFormedWord_of_packed {s : Code} {e : Entry} {vs : List Nat} {w : Word}
    (he : entryFor s.toNat = some e) (hlen : vs.length ≤ e.count) (hfit : ∀ v ∈ vs, v < 2 ^ e.bitWidth)
    (hw : w.toNat = s.toNat + 16 * horner e.bitWidth vs) : wellFormedWord w = true :=
  (wellFormedWord_iff (by rw [packed_selector hw, he])).2 (packed_padding hw hfit hlen)

/-! ### The encoder's ports when the lanes fit (R142) -/

section Ports

variable {sel : Code} {e : Entry} {len : Len} {lanes : Lanes}

theorem length_placed (n : Nat) : (placed n len lanes).length = n := by
  simp [placed]

theorem getD_placed {n i : Nat} (hi : i < n) :
    (placed n len lanes).getD i 0 = if i < len.toNat then (lane lanes i).toNat else 0 := by
  simp [placed, hi]

theorem encPorts_of_fits (he : entryFor sel.toNat = some e) (hlen : len.toNat ≤ e.count)
    (hfit : ∀ i < len.toNat, (lane lanes i).toNat < 2 ^ e.bitWidth) :
    ∃ w : Word, encPorts sel len lanes = ⟨w, 0, 0⟩ ∧
      w.toNat = sel.toNat + 16 * horner e.bitWidth (placed e.count len lanes) := by
  obtain ⟨hmany, -⟩ | ⟨-, i, hi, hbig, -⟩ | ⟨-, -, hword⟩ := answer_of_entry he (encPorts_cases sel len lanes)
  · omega
  · exact absurd (hfit i hi) hbig.not_gt
  · exact hword

/-- Under a valid selector the word is 0 beside a failure, and beside status 0 the packed lanes. -/
theorem encPorts_word_cases (he : entryFor sel.toNat = some e) (len : Len) (lanes : Lanes) :
    ((encPorts sel len lanes).status ≠ 0 ∧ (encPorts sel len lanes).word = 0) ∨
    ((encPorts sel len lanes).status = 0 ∧ (∀ i < len.toNat, (lane lanes i).toNat < 2 ^ e.bitWidth) ∧
      (encPorts sel len lanes).word.toNat = sel.toNat + 16 * horner e.bitWidth (placed e.count len lanes)) := by
  obtain ⟨-, hp⟩ | ⟨-, i, -, -, -, hp⟩ | ⟨-, hfit, w, hp, hw⟩ :=
    answer_of_entry he (encPorts_cases sel len lanes) <;> rw [hp]
  · exact .inl ⟨(by decide : (2 : BitVec 2) ≠ 0), rfl⟩
  · exact .inl ⟨(by decide : (3 : BitVec 2) ≠ 0), rfl⟩
  · exact .inr ⟨rfl, hfit, hw⟩

end Ports

/-- Only the lanes below the length are in the sequence (R143). -/
theorem laneValues_congr {n : Nat} {lanes lanes' : Lanes} (h : ∀ i < n, lane lanes i = lane lanes' i) :
    laneValues n lanes = laneValues n lanes' :=
  laneValues_eq_map fun i hi => by rw [h i hi]

end Sys2Proof.Machine

namespace Sys2Proof.Stated

open Machine

/-- The selectors without an entry are 0 and 15. -/
theorem entryFor_reserved {s : Code} (h : s = 0 ∨ s = 15) : entryFor s.toNat = none := by
  obtain rfl | rfl := h <;> rfl

theorem Valid.exists_entry {s : Code} (h : Valid s) : ∃ e, entryFor s.toNat = some e :=
  entryFor_valid h.1 h.2

theorem carries_laneValues (len : Len) (lanes : Lanes) : Carries len lanes (laneValues len.toNat lanes) := by
  refine ⟨by simp [laneValues], fun i hi => ?_⟩
  simp [laneValues, (lt_min_iff.1 hi).1]

theorem bits_zero (lo n : Nat) : bits 0 lo n = 0 := by
  simp [bits]

/-- The payload as a sum of values at their slots' weights (R141). -/
theorem weightedSum_eq_horner (b : Nat) (vs : List Nat) : weightedSum b vs = horner b vs := by
  induction vs with
  | nil => rfl
  | cons v vs ih =>
    have hshift (i : Nat) : (v :: vs).getD (i + 1) 0 * 2 ^ ((i + 1) * b) = 2 ^ b * (vs.getD i 0 * 2 ^ (i * b)) := by
      rw [List.getD_cons_succ, Nat.succ_mul, pow_add]
      ring
    rw [horner, ← ih, weightedSum, weightedSum, List.length_cons, List.range_succ_eq_map, List.map_cons,
      List.sum_cons, List.map_map, ← List.sum_map_mul_left]
    simp only [Function.comp_def, Nat.succ_eq_add_one, hshift, List.getD_cons_zero, Nat.zero_mul, pow_zero,
      Nat.mul_one]

/-! ### The ENCODE forms (R150 to R165) -/

theorem exec_of_encReq {i : Instr} {sel : Code} {len : Len} {lanes : Lanes}
    (hi : encodeRequest i = .encReq sel len lanes) (s : State) : exec i s = .next (s.evalEnc sel len lanes) := by
  rw [exec_eq_evalRequest, hi, State.evalRequest]

/-- A form that asks for a selector with an entry packs the lanes that fit. -/
theorem encodePacks_of_entry {mk : Len → Lanes → Instr} {sel : Code} {count bitWidth : Nat}
    (hmk : ∀ len lanes, encodeRequest (mk len lanes) = .encReq sel len lanes)
    (he : entryFor sel.toNat = some ⟨count, bitWidth⟩) : EncodePacks mk sel count bitWidth := by
  intro len lanes s hlen hfit
  obtain ⟨w, hp, hw⟩ := encPorts_of_fits he hlen hfit
  have hplaced := placed_lt (n := count) hfit
  refine ⟨w, ?_, ?_, fun i hi => ?_, packed_padding hw hplaced (length_placed count).le⟩
  · rw [exec_of_encReq (hmk len lanes), State.evalEnc, hp]
  · rw [bits, pow_zero, Nat.div_one, packed_selector hw]
  · rw [bits, packed_slot hw hplaced, getD_placed hi]

theorem exec_of_noEntry {i : Instr} {sel : Code} {len : Len} {lanes : Lanes}
    (hi : encodeRequest i = .encReq sel len lanes) (he : entryFor sel.toNat = none) (s : State) :
    exec i s = .next { s with encSel := sel, encLen := len, encVal := lanes, encResp := ⟨0, 1, 0⟩ } := by
  rw [exec_of_encReq hi, State.evalEnc, encPorts_of_noEntry he]

/-! ### The statements -/

/-- Settles O32: each form asks for its own selector, whose row of O1 gives the slots. -/
theorem encodeFormsPackFittingLanes : Obligations.EncodeFormsPackFittingLanes := by
  obtain ⟨h1, h2, h3, h4, h5, h6, h7, h8, h9, h10, h11, h12, h13, h14, -⟩ := selectorTableIsCanonical
  exact ⟨encodePacks_of_entry (fun _ _ => rfl) h1, encodePacks_of_entry (fun _ _ => rfl) h2,
    encodePacks_of_entry (fun _ _ => rfl) h3, encodePacks_of_entry (fun _ _ => rfl) h4,
    encodePacks_of_entry (fun _ _ => rfl) h5, encodePacks_of_entry (fun _ _ => rfl) h6,
    encodePacks_of_entry (fun _ _ => rfl) h7, encodePacks_of_entry (fun _ _ => rfl) h8,
    encodePacks_of_entry (fun _ _ => rfl) h9, encodePacks_of_entry (fun _ _ => rfl) h10,
    encodePacks_of_entry (fun _ _ => rfl) h11, encodePacks_of_entry (fun _ _ => rfl) h12,
    encodePacks_of_entry (fun _ _ => rfl) h13, encodePacks_of_entry (fun _ _ => rfl) h14⟩

/-- Settles O6: the word is the packed one, whose slot i is value i; the decoder reads the same slot, for its nibble is
the selector. -/
theorem encodePlacesValueInSlot : Obligations.EncodePlacesValueInSlot := by
  intro s values w hs h i hi
  obtain ⟨e, he⟩ := hs.exists_entry
  obtain ⟨hlen, hfit, hw⟩ := (encodeWord_eq_word_iff he).1 h
  have hslot := packed_slot hw hfit i
  have hnibble : entryFor (w.toNat % 2 ^ 4) = some e := by rw [packed_selector hw, he]
  rw [widthOf_eq he]
  refine ⟨hslot, ?_⟩
  rw [decodeWord_of_entry hnibble, List.getElem?_map, List.getElem?_range (by omega), Option.map_some, hslot]

/-- Settles O7: a packed word's slots past the values and its padding are 0, and zeros do not change the payload. -/
theorem encodeZeroFills : Obligations.EncodeZeroFills := by
  intro s values w hs h
  obtain ⟨e, he⟩ := hs.exists_entry
  obtain ⟨hlen, hfit, hw⟩ := (encodeWord_eq_word_iff he).1 h
  rw [widthOf_eq he, countOf_eq he, encodeWord_append_zeros he]
  refine ⟨fun i hi _ => ?_, packed_padding hw hfit hlen, h⟩
  rw [bits, packed_slot hw hfit, List.getD_eq_default _ _ hi]

/-- Settles O8: the selector and the payload are disjoint in the word, so their or is their sum. -/
theorem encodeComposesWord : Obligations.EncodeComposesWord := by
  intro s values w hs h
  obtain ⟨e, he⟩ := hs.exists_entry
  obtain ⟨-, hfit, hw⟩ := (encodeWord_eq_word_iff he).1 h
  have hpayload : packedPayload e.bitWidth 0 values = horner e.bitWidth values := by
    rw [packedPayload_eq_horner hfit, Nat.zero_mul, pow_zero, Nat.mul_one]
  rw [widthOf_eq he, hpayload, weightedSum_eq_horner]
  refine ⟨?_, ?_, ?_, hw⟩
  · rw [Nat.or_comm, ← Nat.shiftLeft_add_eq_or_of_lt s.isLt, Nat.shiftLeft_eq, hw]
    omega
  · rw [bits, pow_zero, Nat.div_one, packed_selector hw]
  · have := w.isLt
    rw [bits, ← packed_payload hw]
    omega

/-- Settles O9: a word comes out exactly when no check fails. -/
theorem encodeSucceedsExactlyWhenValuesFit : Obligations.EncodeSucceedsExactlyWhenValuesFit := by
  intro s values hs
  obtain ⟨e, he⟩ := hs.exists_entry
  rw [countOf_eq he, widthOf_eq he]
  exact exists_encodeWord_eq_word_iff he

/-- Settles O10: one case of `encodeWord` for each check, in the order of the checks. -/
theorem encodeChecksInOrder : Obligations.EncodeChecksInOrder := by
  refine ⟨fun s values h => encodeWord_of_noEntry (entryFor_reserved h), fun s values hs hmany => ?_,
    fun s values i hs hlen hi hbig hlow => ?_⟩
  all_goals obtain ⟨e, he⟩ := hs.exists_entry
  · rw [countOf_eq he] at hmany
    exact encodeWord_of_tooMany he hmany
  · rw [countOf_eq he] at hlen
    rw [widthOf_eq he] at hbig hlow
    exact encodeWord_of_misfit he hlen hi hbig hlow

/-- The word of all slots maximal, as R144 (d) writes it: the slots fill 60 payload bits, or 56 under 7 and 8. -/
theorem encodeWord_replicate_max_literal {s : Code} {e : Entry} (he : entryFor s.toNat = some e) :
    ∃ w, encodeWord s (List.replicate e.count (2 ^ e.bitWidth - 1)) = .word w ∧
      w.toNat = (if s = 7 ∨ s = 8 then 0x0FFFFFFFFFFFFFF0 else 0xFFFFFFFFFFFFFFF0) + s.toNat := by
  obtain ⟨w, hr, hw⟩ := encodeWord_replicate_max he
  obtain ⟨hproduct, -⟩ := entryFor_product he
  have hcodes : (s.toNat = 7 ∨ s.toNat = 8) ↔ (s = 7 ∨ s = 8) := by
    rw [← BitVec.toNat_inj, ← BitVec.toNat_inj]
    rfl
  simp only [hcodes] at hproduct
  refine ⟨w, hr, ?_⟩
  rw [hw, hproduct]
  split <;> omega

/-- Settles O11: (a) to (c) add zeros, (d) fills the slots with ones, (e) and (f) are the bounds of the two checks, and
(g) reads the selector off the word. -/
theorem encodeCornerCases : Obligations.EncodeCornerCases := by
  intro s hs
  obtain ⟨e, he⟩ := hs.exists_entry
  obtain ⟨-, -, hcount, -⟩ := entryFor_bounds he
  rw [countOf_eq he, widthOf_eq he]
  refine ⟨encodeWord_nil he, fun k hk => encodeWord_zeros he hk, fun values => (encodeWord_append_zeros he).symm,
    encodeWord_replicate_max_literal he,
    fun values => ⟨fun hlen hfit => (exists_encodeWord_eq_word_iff he).2 ⟨hlen.le, hfit⟩, fun hlen => ?_⟩,
    (exists_encodeWord_eq_word_iff he).2 ⟨hcount, ?_⟩,
    encodeWord_of_misfit he hcount Nat.one_pos le_rfl (by simp), fun values => encodeWord_ne_zero he⟩
  · rw [← hlen]
    exact encodeWord_of_tooMany he (by omega)
  · simp

/-- Settles O28: the ports show the encode of the carried sequence, which the lanes past the length are not in; a
failure's word is 0, and a packed word's slots past the length are. -/
theorem ignoredLanesDoNotShow : Obligations.IgnoredLanesDoNotShow := by
  refine ⟨fun sel len lanes lanes' h => ?_, fun sel len lanes e he i hlen hi => ?_,
    fun sel len len' lanes lanes' h => ?_⟩
  · rw [portEncoderRefinesEncode sel len lanes _ (carries_laneValues len lanes), laneValues_congr h,
      ← portEncoderRefinesEncode sel len lanes' _ (carries_laneValues len lanes')]
  · obtain ⟨-, hzero⟩ | ⟨-, hfit, hw⟩ := encPorts_word_cases he len lanes
    · rw [hzero, bits_zero]
    · rw [bits, packed_slot hw (placed_lt hfit), getD_placed hi, if_neg hlen.not_gt]
  · have he := entryFor_reserved h
    rw [encPorts_of_noEntry he, encPorts_of_noEntry he]

/-- Settles O31: beside status 0, and wherever a valid selector's encode gives a word, the word is a packed one. -/
theorem okResultIsWellFormed : Obligations.OkResultIsWellFormed := by
  refine ⟨fun sel len lanes hok => ?_, fun s values w hs h => ?_⟩
  · cases he : entryFor sel.toNat with
    | none =>
      rw [encPorts_of_noEntry he] at hok
      exact absurd hok (by decide)
    | some e =>
      obtain ⟨hfail, -⟩ | ⟨-, hfit, hw⟩ := encPorts_word_cases he len lanes
      · exact absurd hok hfail
      · exact wellFormedWord_of_packed he (length_placed e.count).le (placed_lt hfit) hw
  · obtain ⟨e, he⟩ := hs.exists_entry
    obtain ⟨hlen, hfit, hw⟩ := (encodeWord_eq_word_iff he).1 h
    exact wellFormedWord_of_packed he hlen hfit hw

/-- Settles O5: selectors 0 and 15 have no entry, so no check is made; neither has the zero word's own selector. -/
theorem encodeInvalidSelectorIsZeroWord : Obligations.EncodeInvalidSelectorIsZeroWord :=
  ⟨fun _ => ⟨encodeWord_of_noEntry (entryFor_reserved (.inl rfl)),
    encodeWord_of_noEntry (entryFor_reserved (.inr rfl))⟩, by rw [bits_zero]; exact entryFor_eq_none_iff.2 (.inl rfl)⟩

/-- Settles O35: the two reserved forms ask for the selectors without an entry. -/
theorem reservedEncodeFormsGiveZeroWord : Obligations.ReservedEncodeFormsGiveZeroWord := fun _ _ s =>
  ⟨exec_of_noEntry rfl (entryFor_reserved (.inl rfl)) s, exec_of_noEntry rfl (entryFor_reserved (.inr rfl)) s⟩

end Sys2Proof.Stated

/-! ## Proofs of the decoder family (spec/42_decoder.md R172 to R181, R190 to R205): the slots a decode reads, the
padding flag, and the DECODE forms -/

namespace Sys2Proof.Stated

open Machine

/-! ### Slices of a word (spec/00_scope.md R10) -/

section Slices

variable {w w' : Word} {lo k n : Nat}

theorem bits_from_zero (w : Word) (n : Nat) : bits w 0 n = w.toNat % 2 ^ n := by
  rw [bits, pow_zero, Nat.div_one]

theorem bits_lt (w : Word) (lo n : Nat) : bits w lo n < 2 ^ n :=
  Nat.mod_lt _ (by positivity)

/-- A slice that ends at the top bit is all that stands above its lowest bit. -/
theorem bits_top (hn : lo + n = 64) : bits w lo n = w.toNat / 2 ^ lo := by
  refine Nat.mod_eq_of_lt (Nat.div_lt_of_lt_mul ?_)
  rw [← pow_add, hn]
  exact w.isLt

/-- A slice of the low n bits is read off those bits. -/
theorem bits_eq_of_low (hle : lo + k ≤ n) : bits w lo k = bits w 0 n % 2 ^ (lo + k) / 2 ^ lo := by
  rw [bits_from_zero, Nat.mod_mod_of_dvd _ (pow_dvd_pow 2 hle), pow_add, Nat.mod_mul_right_div_self, bits]

/-- Words that agree on the low n bits agree on every slice of them. -/
theorem bits_congr (hlow : bits w 0 n = bits w' 0 n) (hle : lo + k ≤ n) : bits w lo k = bits w' lo k := by
  rw [bits_eq_of_low hle, bits_eq_of_low hle, hlow]

/-- Shift and mask is the slice (spec/42_decoder.md R173). -/
theorem shift_mask_eq_bits (w : Word) (b i : Nat) :
    ((w.toNat >>> 4) >>> (i * b)) &&& ((1 <<< b) - 1) = bits w (4 + i * b) b := by
  rw [Nat.shiftLeft_eq, Nat.one_mul, Nat.and_two_pow_sub_one_eq_mod, ← Nat.shiftRight_add, Nat.shiftRight_eq_div_pow,
    bits]

/-- The word with bits [63:60] cleared. -/
theorem toNat_and_low60 (w : Word) : (w &&& 0x0FFFFFFFFFFFFFFF).toNat = w.toNat % 2 ^ 60 := by
  rw [BitVec.toNat_and]
  exact Nat.and_two_pow_sub_one_eq_mod w.toNat 60

theorem bits_and_low60 (hle : lo + k ≤ 60) : bits (w &&& 0x0FFFFFFFFFFFFFFF) lo k = bits w lo k := by
  refine bits_congr ?_ hle
  rw [bits_from_zero, bits_from_zero, toNat_and_low60, Nat.mod_mod]

theorem bits_and_low60_top (w : Word) : bits (w &&& 0x0FFFFFFFFFFFFFFF) 60 4 = 0 := by
  rw [bits_top rfl, toNat_and_low60, Nat.div_eq_of_lt (Nat.mod_lt _ (by norm_num))]

end Slices

/-! ### A decode under a nibble with an entry (R173) -/

section Decode

variable {w w' : Word} {e : Entry}

theorem decodeWord_of_nibble_entry (he : entryFor (bits w 0 4) = some e) :
    decodeWord w = (List.range e.count).map fun i => bits w (4 + i * e.bitWidth) e.bitWidth := by
  rw [bits_from_zero] at he
  exact decodeWord_of_entry he

theorem decodeWord_of_nibble_noEntry (he : entryFor (bits w 0 4) = none) : decodeWord w = [] := by
  rw [bits_from_zero] at he
  exact decodeWord_of_noEntry he

theorem getElem?_decodeWord (he : entryFor (bits w 0 4) = some e) {i : Nat} (hi : i < e.count) :
    (decodeWord w)[i]? = some (bits w (4 + i * e.bitWidth) e.bitWidth) := by
  rw [decodeWord_of_nibble_entry he, List.getElem?_map, List.getElem?_range hi, Option.map_some]

/-- Words that agree up to the last slot have the same nibble. -/
theorem nibble_congr (hlow : bits w 0 (4 + e.count * e.bitWidth) = bits w' 0 (4 + e.count * e.bitWidth)) :
    bits w 0 4 = bits w' 0 4 :=
  bits_congr hlow (by omega)

/-- Words that agree up to the last slot agree on every slot. -/
theorem slot_congr (hlow : bits w 0 (4 + e.count * e.bitWidth) = bits w' 0 (4 + e.count * e.bitWidth)) {i : Nat}
    (hi : i < e.count) : bits w (4 + i * e.bitWidth) e.bitWidth = bits w' (4 + i * e.bitWidth) e.bitWidth := by
  have hslot : (i + 1) * e.bitWidth ≤ e.count * e.bitWidth := Nat.mul_le_mul_right _ hi
  rw [Nat.succ_mul] at hslot
  exact bits_congr hlow (by omega)

/-- A decode reads the nibble and the slots only (R176). -/
theorem decodeWord_congr (he : entryFor (bits w 0 4) = some e)
    (hlow : bits w 0 (4 + e.count * e.bitWidth) = bits w' 0 (4 + e.count * e.bitWidth)) :
    decodeWord w = decodeWord w' := by
  rw [decodeWord_of_nibble_entry he, decodeWord_of_nibble_entry (nibble_congr hlow ▸ he)]
  exact List.map_congr_left fun i hi => slot_congr hlow (List.mem_range.1 hi)

/-- Under selectors 7 and 8 the last slot ends below bit 60 (spec/40_selector_table.md R102). -/
theorem exists_entry_of_seven_or_eight {code : Nat} (h : code = 7 ∨ code = 8) :
    ∃ e, entryFor code = some e ∧ e.count * e.bitWidth = 56 := by
  obtain ⟨e, he⟩ := entryFor_valid (code := code) (by omega) (by omega)
  obtain ⟨hproduct, -⟩ := entryFor_product he
  exact ⟨e, he, by rw [hproduct, if_pos h]⟩

end Decode

/-! ### The decoder's ports under a nibble with an entry (R178 to R180) -/

section Ports

variable {w w' : Word} {e : Entry}

theorem decPorts_of_entry (he : entryFor (bits w 0 4) = some e) :
    ∃ val, decPorts w = ⟨BitVec.ofNat 6 e.count, val, 0, padFlag e w⟩ ∧
      (∀ i < e.count, (lane val i).toNat = bits w (4 + i * e.bitWidth) e.bitWidth) ∧
      ∀ i, e.count ≤ i → i < 60 → lane val i = 0 := by
  rw [bits_from_zero] at he
  exact answer_of_entry he (decPorts_cases w)

/-- An entry that leaves no padding bits fills the word, so the flag needs no test for padding. -/
theorem padFlag_eq_one_iff (he : entryFor (bits w 0 4) = some e) :
    padFlag e w = 1 ↔ w.toNat / 2 ^ (4 + e.count * e.bitWidth) ≠ 0 := by
  rw [padFlag_eq_one, and_iff_right_iff_imp]
  intro hpad
  obtain ⟨-, -, -, -, -, -, hfits⟩ := entryFor_bounds he
  refine hfits.lt_of_ne fun hfull => hpad ?_
  rw [hfull]
  exact Nat.div_eq_of_lt w.isLt

/-- Outside the padding flag the ports show the nibble and the slots only (R176, R180). -/
theorem decPorts_congr (he : entryFor (bits w 0 4) = some e)
    (hlow : bits w 0 (4 + e.count * e.bitWidth) = bits w' 0 (4 + e.count * e.bitWidth)) :
    decPorts w = { decPorts w' with padNz := padFlag e w } := by
  obtain ⟨val, hp, hslots, hpast⟩ := decPorts_of_entry he
  obtain ⟨val', hp', hslots', hpast'⟩ := decPorts_of_entry (w := w') (nibble_congr hlow ▸ he)
  have hval : val = val' := lanes_ext fun i hi => by
    by_cases hcount : i < e.count
    · apply BitVec.eq_of_toNat_eq
      rw [hslots i hcount, hslots' i hcount, slot_congr hlow hcount]
    · rw [hpast i (by omega) hi, hpast' i (by omega) hi]
  rw [hp, hp', hval]

/-- The padding flag of any word: with no entry it is 0, and only the entries of codes 7 and 8 end below the top
bit (R180). -/
theorem padNz_eq_one_iff (w : Word) :
    (decPorts w).padNz = 1 ↔ (bits w 0 4 = 7 ∨ bits w 0 4 = 8) ∧ bits w 60 4 ≠ 0 := by
  cases he : entryFor (bits w 0 4) with
  | none =>
    have hports : decPorts w = emptyDecode := decPorts_of_noEntry (bits_from_zero w 4 ▸ he)
    have hcode := entryFor_eq_none_iff.1 he
    rw [hports]
    exact ⟨fun h => absurd h (by decide), fun ⟨hpad, _⟩ => by omega⟩
  | some e =>
    obtain ⟨val, hp, -⟩ := decPorts_of_entry he
    obtain ⟨hproduct, -⟩ := entryFor_product he
    rw [hp, padFlag_eq_one, bits_top (lo := 60) rfl, hproduct]
    by_cases hpad : bits w 0 4 = 7 ∨ bits w 0 4 = 8 <;> simp [hpad]

end Ports

/-! ### The DECODE forms (R190 to R205) -/

theorem exec_of_word {i : Instr} {w : Word} (hi : encodeRequest i = .word w) (s : State) :
    exec i s = .next { s with decWord := w, decResp := decPorts w } := by
  rw [exec_eq_evalRequest, hi, State.evalRequest, State.evalDec]

theorem bits_nibble_wordOf (payload : Payload) (sel : Code) : bits (wordOf payload sel) 0 4 = sel.toNat := by
  rw [bits_from_zero, ← selectorOf_toNat, selectorOf_wordOf]

/-- A form that asks for a selector with an entry unpacks the slots of its word. -/
theorem decodeUnpacks_of_entry {mk : Payload → Instr} {sel : Code} {count bitWidth : Nat}
    (hmk : ∀ payload, encodeRequest (mk payload) = .word (wordOf payload sel))
    (he : entryFor sel.toNat = some ⟨count, bitWidth⟩) : DecodeUnpacks mk sel count bitWidth := by
  intro payload s
  have hnibble := (congrArg entryFor (bits_nibble_wordOf payload sel)).trans he
  obtain ⟨val, hp, hslots, hpast⟩ := decPorts_of_entry hnibble
  refine ⟨wordOf payload sel, val, _, ?_, wordOf_toNat payload sel, hslots, hpast, padFlag_eq_one_iff hnibble⟩
  rw [exec_of_word (hmk payload), hp]

/-- A form that asks for a selector without an entry gives the empty sequence. -/
theorem exec_decode_of_noEntry {i : Instr} {payload : Payload} {sel : Code}
    (hi : encodeRequest i = .word (wordOf payload sel)) (he : entryFor sel.toNat = none) (s : State) :
    ∃ w : Word, w.toNat = sel.toNat + 16 * payload.toNat ∧
      exec i s = .next { s with decWord := w, decResp := emptyDecode } := by
  refine ⟨wordOf payload sel, wordOf_toNat payload sel, ?_⟩
  rw [exec_of_word hi, decPorts_of_noEntry]
  rw [← bits_from_zero, bits_nibble_wordOf, he]

/-! ### The statements -/

/-- Settles O13: element i is the slice of slot i, which shift and mask cut out. -/
theorem decodeExtractsSlots : Obligations.DecodeExtractsSlots := by
  intro w e he i hi
  rw [shift_mask_eq_bits]
  exact ⟨getElem?_decodeWord he hi, getElem?_decodeWord he hi⟩

/-- Settles O15: an element is a slice of bitWidth bits, and no entry's bitWidth is above 60. -/
theorem decodedValuesFit : Obligations.DecodedValuesFit := by
  intro w v hv
  cases he : entryFor (bits w 0 4) with
  | none => simp [decodeWord_of_nibble_noEntry he] at hv
  | some e =>
    rw [decodeWord_of_nibble_entry he] at hv
    obtain ⟨i, -, rfl⟩ := List.mem_map.1 hv
    obtain ⟨-, -, -, -, -, hwidth, -⟩ := entryFor_bounds he
    have hslot := bits_lt w (4 + i * e.bitWidth) e.bitWidth
    rw [widthOf_eq he]
    exact ⟨hslot, hslot.trans_le (Nat.pow_le_pow_right (by norm_num) hwidth)⟩

/-- Settles O16: every slot is a slice of the bits agreed on; under 7 and 8 the last slot ends below bit 60. -/
theorem decodeReadsNoOtherBits : Obligations.DecodeReadsNoOtherBits := by
  refine ⟨fun w w' e he hlow => decodeWord_congr he hlow, fun w w' he hnibble => ?_, fun w h => ?_⟩
  · rw [decodeWord_of_nibble_noEntry he, decodeWord_of_nibble_noEntry (hnibble ▸ he)]
  · obtain ⟨e, he, hproduct⟩ := exists_entry_of_seven_or_eight h
    exact decodeWord_congr he (bits_and_low60 (by omega)).symm

/-- Settles O30: the flag is `padNz_eq_one_iff`; a cleared word agrees up to the last slot of 7 and 8, and has no
padding bit. -/
theorem padFlagExactly : Obligations.PadFlagExactly := by
  refine fun w => ⟨padNz_eq_one_iff w, fun h => ?_⟩
  obtain ⟨e, he, hproduct⟩ := exists_entry_of_seven_or_eight h
  have hcleared : (decPorts (w &&& 0x0FFFFFFFFFFFFFFF)).padNz ≠ 1 := fun hone =>
    ((padNz_eq_one_iff _).1 hone).2 (bits_and_low60_top w)
  rw [decPorts_congr he (bits_and_low60 (by omega)).symm]
  exact ⟨rfl, rfl, rfl, (BitVec.eq_zero_or_eq_one _).resolve_right hcleared⟩

/-- Settles O36: each form asks for its own selector, whose row of O1 gives the slots. -/
theorem decodeFormsUnpackSlots : Obligations.DecodeFormsUnpackSlots := by
  obtain ⟨h1, h2, h3, h4, h5, h6, h7, h8, h9, h10, h11, h12, h13, h14, -⟩ := selectorTableIsCanonical
  exact ⟨decodeUnpacks_of_entry (fun _ => rfl) h1, decodeUnpacks_of_entry (fun _ => rfl) h2,
    decodeUnpacks_of_entry (fun _ => rfl) h3, decodeUnpacks_of_entry (fun _ => rfl) h4,
    decodeUnpacks_of_entry (fun _ => rfl) h5, decodeUnpacks_of_entry (fun _ => rfl) h6,
    decodeUnpacks_of_entry (fun _ => rfl) h7, decodeUnpacks_of_entry (fun _ => rfl) h8,
    decodeUnpacks_of_entry (fun _ => rfl) h9, decodeUnpacks_of_entry (fun _ => rfl) h10,
    decodeUnpacks_of_entry (fun _ => rfl) h11, decodeUnpacks_of_entry (fun _ => rfl) h12,
    decodeUnpacks_of_entry (fun _ => rfl) h13, decodeUnpacks_of_entry (fun _ => rfl) h14⟩

/-- Settles O14: one element for each slot of the nibble's entry, and none where there is no entry. -/
theorem decodeLengthFromSelectorOnly : Obligations.DecodeLengthFromSelectorOnly := by
  refine fun w => ⟨fun e he => ?_, fun h => ?_⟩
  · rw [decodeWord_of_nibble_entry he, List.length_map, List.length_range]
  · exact decodeWord_of_nibble_noEntry (entryFor_eq_none_iff.2 (by omega))

/-- Settles O37: the two reserved forms ask for the selectors without an entry. -/
theorem reservedDecodeFormsGiveEmpty : Obligations.ReservedDecodeFormsGiveEmpty := by
  refine fun payload s => ⟨?_, exec_decode_of_noEntry rfl (entryFor_reserved (.inr rfl)) s⟩
  simpa using exec_decode_of_noEntry (i := .decode0 payload) rfl (entryFor_reserved (.inl rfl)) s

end Sys2Proof.Stated

/-! ## Proofs of the round-trip family (spec/43_roundtrip_laws.md R210 to R220): decode after encode, encode after
decode, and the encoder's word wired to the decoder -/

namespace Sys2Proof.Machine

/-! ### Decode after encode (R210) -/

/-- A list read past its end with default 0 is the padded list (spec/30_encoding.md R79). -/
theorem map_getD_range_eq_pad {values : List Nat} {n : Nat} (hlen : values.length ≤ n) :
    (List.range n).map (fun i => values.getD i 0) = pad values n := by
  refine List.ext_getElem (by simp [pad, zeros]; omega) fun i _ _ => ?_
  rw [List.getElem_map, List.getElem_range]
  by_cases hi : i < values.length
  · simp [pad, hi]
  · simp [pad, zeros, List.getElem_append_right (not_lt.1 hi), not_lt.1 hi]

theorem pad_of_length_eq {values : List Nat} {n : Nat} (hlen : values.length = n) : pad values n = values := by
  simp [pad, zeros, hlen]

section RoundTrip

variable {s : Code} {e : Entry} {values : List Nat} {w : Word}

/-- The nibble of a packed word is its selector, and each slot holds its value. -/
theorem decodeWord_of_packed (he : entryFor s.toNat = some e) (hlen : values.length ≤ e.count)
    (hfit : ∀ v ∈ values, v < 2 ^ e.bitWidth) (hw : w.toNat = s.toNat + 16 * horner e.bitWidth values) :
    decodeWord w = pad values e.count := by
  have hnibble : entryFor (w.toNat % 2 ^ 4) = some e := by rw [packed_selector hw, he]
  rw [decodeWord_of_entry hnibble, ← map_getD_range_eq_pad hlen]
  exact List.map_congr_left fun i _ => packed_slot hw hfit i

/-- Whatever the values, a word that comes out decodes to them, padded (R210, R213). -/
theorem decodeWord_of_encodeWord (he : entryFor s.toNat = some e) (h : encodeWord s values = .word w) :
    decodeWord w = pad values e.count := by
  obtain ⟨hlen, hfit, hw⟩ := (encodeWord_eq_word_iff he).1 h
  exact decodeWord_of_packed he hlen hfit hw

/-- A full-length sequence needs no padding. -/
theorem decodeWord_of_encodeWord_full (h : encodeWord s values = .word w) (he : entryFor s.toNat = some e)
    (hfull : values.length = e.count) : decodeWord w = values :=
  (decodeWord_of_encodeWord he h).trans (pad_of_length_eq hfull)

theorem selectorOf_of_encodeWord (he : entryFor s.toNat = some e) (h : encodeWord s values = .word w) :
    selectorOf w = s := by
  obtain ⟨-, -, hw⟩ := (encodeWord_eq_word_iff he).1 h
  apply BitVec.eq_of_toNat_eq
  rw [selectorOf_toNat, packed_selector hw]

/-- The encode keeps no trace of explicit trailing zeros up to any k the selector allows (R212). -/
theorem encodeWord_pad (he : entryFor s.toNat = some e) {k : Nat} (hk : k ≤ e.count) (hlen : values.length ≤ k)
    (hfit : ∀ v ∈ values, v < 2 ^ e.bitWidth) : encodeWord s (pad values k) = encodeWord s values := by
  obtain ⟨w, hword, hw⟩ := encodeWord_of_fits he (hlen.trans hk) hfit
  rw [hword, encodeWord_eq_word_iff he, pad, horner_append_zeros]
  exact ⟨by simp [zeros]; omega, mem_append_zeros_lt hfit, hw⟩

end RoundTrip

/-! ### Slots packed again (R211) -/

/-- The first n slots of a payload, packed again, are its low bits. -/
theorem horner_map_slots (b p n : Nat) :
    horner b ((List.range n).map fun i => p / 2 ^ (i * b) % 2 ^ b) = p % 2 ^ (n * b) := by
  induction n with
  | zero => simp [horner, Nat.mod_one]
  | succ n ih =>
    rw [List.range_succ, List.map_append, List.map_singleton, horner_concat, ih, List.length_map, List.length_range,
      Nat.succ_mul, pow_add, Nat.mod_mul]

/-! ### Selectors without an entry, and the zero word (R215, R216) -/

theorem entryFor_toNat_eq_none_iff {s : Code} : entryFor s.toNat = none ↔ s = 0 ∨ s = 15 := by
  have hs := s.isLt
  rw [entryFor_eq_none_iff, ← BitVec.toNat_inj, ← BitVec.toNat_inj]
  change _ ↔ s.toNat = 0 ∨ s.toNat = 15
  omega

theorem decodeWord_zero : decodeWord 0 = [] :=
  decodeWord_of_noEntry rfl

theorem decPorts_zero : decPorts 0 = ⟨0, Vector.replicate 60 0, 1, 0⟩ :=
  decPorts_of_noEntry rfl

/-- A result that is not a word is one of the two failures (spec/60_exceptions.md R236). -/
theorem EncodeResult.not_word_iff (r : EncodeResult) :
    (¬ ∃ w, r = .word w) ↔ (∃ n, r = .tooManyValues n) ∨ ∃ i, r = .valueOutOfRange i := by
  cases r <;> simp

section Ports

variable (sel : Code) (len : Len) (lanes : Lanes)

/-- Beside every status but 0 the encoder's word is 0; status 0 says that the selector has an entry which the length
and the lanes fit (spec/41_encoder.md R142). -/
theorem encPorts_failed_or_fits :
    ((encPorts sel len lanes).status ≠ 0 ∧ (encPorts sel len lanes).word = 0) ∨
    ((encPorts sel len lanes).status = 0 ∧ ∃ e, entryFor sel.toNat = some e ∧ len.toNat ≤ e.count ∧
      ∀ i < len.toNat, (lane lanes i).toNat < 2 ^ e.bitWidth) := by
  obtain ⟨-, hp⟩ | ⟨e, he, ⟨-, hp⟩ | ⟨-, i, -, -, -, hp⟩ | ⟨hlen, hfit, w, hp, -⟩⟩ := encPorts_cases sel len lanes <;>
    rw [hp]
  · exact .inl ⟨(by decide : (1 : BitVec 2) ≠ 0), rfl⟩
  · exact .inl ⟨(by decide : (2 : BitVec 2) ≠ 0), rfl⟩
  · exact .inl ⟨(by decide : (3 : BitVec 2) ≠ 0), rfl⟩
  · exact .inr ⟨rfl, e, he, hlen, hfit⟩

/-- A packed word carries its selector, which is not 0, so only a failure or an invalid selector shows a zero word. -/
theorem encPorts_word_eq_zero_iff : (encPorts sel len lanes).word = 0 ↔ (encPorts sel len lanes).status ≠ 0 := by
  obtain ⟨hstatus, hzero⟩ | ⟨hok, e, he, hlen, hfit⟩ := encPorts_failed_or_fits sel len lanes
  · exact iff_of_true hzero hstatus
  · obtain ⟨w, hp, hw⟩ := encPorts_of_fits he hlen hfit
    obtain ⟨hs, -⟩ := entryFor_bounds he
    refine iff_of_false (fun hzero => ?_) (not_not.2 hok)
    rw [hp] at hzero
    obtain rfl : w = 0 := hzero
    have hnat : (0 : Word).toNat = 0 := rfl
    omega

/-- Status 1 tells an invalid selector apart from the two failures (spec/60_exceptions.md R233, R234). -/
theorem encPorts_status_eq_one_iff : (encPorts sel len lanes).status = 1 ↔ entryFor sel.toNat = none := by
  obtain ⟨he, hp⟩ | ⟨e, he, ⟨-, hp⟩ | ⟨-, i, -, -, -, hp⟩ | ⟨-, -, w, hp, -⟩⟩ := encPorts_cases sel len lanes <;>
    rw [hp, he]
  · exact iff_of_true rfl rfl
  · exact iff_of_false (by decide : (2 : BitVec 2) ≠ 1) nofun
  · exact iff_of_false (by decide : (3 : BitVec 2) ≠ 1) nofun
  · exact iff_of_false (by decide : (0 : BitVec 2) ≠ 1) nofun

end Ports

end Sys2Proof.Machine

namespace Sys2Proof.Stated

open Machine

/-! ### Encode after decode (R211, R214) -/

section ReverseRoundTrip

variable {e : Entry} {w w' : Word}

theorem bits_nibble (w : Word) : bits w 0 4 = (selectorOf w).toNat := by
  rw [bits_from_zero, selectorOf_toNat]

/-- A decode gives one value for each slot, and each fits its slot (spec/42_decoder.md R174, R181). -/
theorem decodeWord_fits (he : entryFor (selectorOf w).toNat = some e) :
    (decodeWord w).length = e.count ∧ ∀ v ∈ decodeWord w, v < 2 ^ e.bitWidth := by
  rw [← bits_nibble] at he
  refine ⟨(decodeLengthFromSelectorOnly w).1 e he, fun v hv => ?_⟩
  rw [← widthOf_eq he]
  exact (decodedValuesFit w v hv).1

/-- Decode then encode keeps the nibble and the slots and clears every bit above them. -/
theorem encodeWord_decodeWord_eq_word_iff (he : entryFor (selectorOf w).toNat = some e) :
    encodeWord (selectorOf w) (decodeWord w) = .word w' ↔ w'.toNat = w.toNat % 2 ^ (4 + e.count * e.bitWidth) := by
  have hdecode := decodeWord_of_entry (selectorOf_toNat w ▸ he)
  simp only [pow_add, ← Nat.div_div_eq_div_mul] at hdecode
  obtain ⟨hlen, hfit⟩ := decodeWord_fits he
  have hpacked : (selectorOf w).toNat + 16 * horner e.bitWidth (decodeWord w) =
      w.toNat % 2 ^ (4 + e.count * e.bitWidth) := by
    rw [hdecode, horner_map_slots, selectorOf_toNat, pow_add, Nat.mod_mul]
    rfl
  rw [encodeWord_eq_word_iff he, hpacked]
  exact ⟨fun ⟨_, _, hw⟩ => hw, fun hw => ⟨hlen.le, hfit, hw⟩⟩

theorem exists_entry_of_wellFormedWord (hwf : wellFormedWord w = true) :
    ∃ e, entryFor (selectorOf w).toNat = some e := by
  cases he : entryFor (selectorOf w).toNat with
  | none =>
    rw [wellFormedWord, he] at hwf
    cases hwf
  | some e => exact ⟨e, rfl⟩

/-- The round trip gives the word back exactly when there is nothing above its slots to clear. -/
theorem encodeWord_decodeWord_eq_self_iff (he : entryFor (selectorOf w).toNat = some e) :
    encodeWord (selectorOf w) (decodeWord w) = .word w ↔ wellFormedWord w = true := by
  rw [encodeWord_decodeWord_eq_word_iff he, wellFormedWord_iff (selectorOf_toNat w ▸ he),
    Nat.div_eq_zero_iff_lt (by positivity), eq_comm, Nat.mod_eq_iff_lt (by positivity)]

theorem encodeWord_decodeWord_of_wellFormed (hwf : wellFormedWord w = true) :
    encodeWord (selectorOf w) (decodeWord w) = .word w := by
  obtain ⟨e, he⟩ := exists_entry_of_wellFormedWord hwf
  exact (encodeWord_decodeWord_eq_self_iff he).2 hwf

end ReverseRoundTrip

/-! ### The encoder's word on the decoder's input (R219) -/

/-- The decoder shows the encoder's lanes below the length, zeros past it, and no padding bit. -/
theorem decPorts_encPorts_word {sel : Code} {e : Entry} {len : Len} {lanes : Lanes}
    (he : entryFor sel.toNat = some e) (hlen : len.toNat ≤ e.count)
    (hfit : ∀ i < len.toNat, (lane lanes i).toNat < 2 ^ e.bitWidth) :
    ∃ val, decPorts (encPorts sel len lanes).word = ⟨BitVec.ofNat 6 e.count, val, 0, 0⟩ ∧
      ∀ i < 60, lane val i = if i < len.toNat then lane lanes i else 0 := by
  obtain ⟨w, hp, hw⟩ := encPorts_of_fits he hlen hfit
  have hplaced := placed_lt (n := e.count) hfit
  have hnibble : entryFor (bits w 0 4) = some e := by rw [bits_from_zero, packed_selector hw, he]
  obtain ⟨val, hdec, hslots, hpast⟩ := decPorts_of_entry hnibble
  have hpad : padFlag e w = 0 := (BitVec.eq_zero_or_eq_one _).resolve_right fun hone =>
    (padFlag_eq_one_iff hnibble).1 hone (packed_padding hw hplaced (length_placed e.count).le)
  rw [hp, hdec, hpad]
  refine ⟨val, rfl, fun i hi => ?_⟩
  by_cases hcount : i < e.count
  · apply BitVec.eq_of_toNat_eq
    rw [hslots i hcount, bits, packed_slot hw hplaced, getD_placed hcount]
    split <;> rfl
  · rw [hpast i (not_lt.1 hcount) hi, if_neg (by omega)]

/-! ### The statements -/

/-- Settles O17: the values pass both checks, and the word that comes out decodes to them, padded. -/
theorem roundTrip : Obligations.RoundTrip := by
  intro s values hs hlen hfit
  obtain ⟨e, he⟩ := hs.exists_entry
  rw [countOf_eq he] at hlen ⊢
  rw [widthOf_eq he] at hfit
  obtain ⟨w, hword, -⟩ := encodeWord_of_fits he hlen hfit
  exact ⟨w, hword, decodeWord_of_encodeWord he hword⟩

/-- Settles O18: a well-formed word comes back from its decode, so its decode determines it; a full-length sequence
needs no padding, and what a decode gives fits its slots. -/
theorem reverseRoundTrip : Obligations.ReverseRoundTrip := by
  refine ⟨fun w => encodeWord_decodeWord_of_wellFormed, fun w w' hwf hwf' hsel hdec => ?_,
    fun s values hs hlen hfit => ?_, fun w hwf => ?_⟩
  · have hword : EncodeResult.word w = .word w' := by
      rw [← encodeWord_decodeWord_of_wellFormed hwf, hsel, hdec, encodeWord_decodeWord_of_wellFormed hwf']
    injection hword
  · obtain ⟨w, hword, -⟩ := roundTrip s values hs hlen.le hfit
    obtain ⟨e, he⟩ := hs.exists_entry
    exact ⟨w, hword, okResultIsWellFormed.2 s values w hs hword, selectorOf_of_encodeWord he hword,
      decodeWord_of_encodeWord_full hword he (hlen.trans (countOf_eq he))⟩
  · obtain ⟨e, he⟩ := exists_entry_of_wellFormedWord hwf
    rw [countOf_eq he, widthOf_eq he]
    exact decodeWord_fits he

/-- Settles O20: a word decodes to the padded input; a result that is no word is a failure, and a word comes out
exactly within the precondition of R210. -/
theorem noSilentTruncation : Obligations.NoSilentTruncation := by
  intro s values hs
  obtain ⟨e, he⟩ := hs.exists_entry
  rw [countOf_eq he, widthOf_eq he]
  refine ⟨fun w => decodeWord_of_encodeWord he, ?_⟩
  rw [← exists_encodeWord_eq_word_iff he, EncodeResult.not_word_iff]

/-- Settles O25: a common word has one selector and one decode; conversely both words are the encode of the padded
sequence. -/
theorem encodesAgreeExactly : Obligations.EncodesAgreeExactly := by
  intro s s' values values' hs hs' hlen hfit hlen' hfit'
  obtain ⟨w, hword, hdec⟩ := roundTrip s values hs hlen hfit
  obtain ⟨w', hword', hdec'⟩ := roundTrip s' values' hs' hlen' hfit'
  obtain ⟨e, he⟩ := hs.exists_entry
  obtain ⟨e', he'⟩ := hs'.exists_entry
  constructor
  · intro h
    rw [hword, hword'] at h
    obtain rfl : w = w' := by injection h
    obtain rfl : s = s' := (selectorOf_of_encodeWord he hword).symm.trans (selectorOf_of_encodeWord he' hword')
    exact ⟨rfl, hdec.symm.trans hdec'⟩
  · rintro ⟨rfl, hpad⟩
    rw [countOf_eq he] at hpad
    rw [← encodeWord_append_zeros he, ← encodeWord_append_zeros (values := values') he]
    exact congrArg (encodeWord s) hpad

/-- Settles O38: the encoder evaluates, then the decoder on its word; with status 0 the word is the packed lanes, and
beside every other status it is the zero word. -/
theorem portRoundTrip : Obligations.PortRoundTrip := by
  intro sel len lanes s
  refine ⟨s.evalEnc sel len lanes, (s.evalEnc sel len lanes).evalDec (encPorts sel len lanes).word,
    exec_encodeForm sel len lanes s, exec_decodeRequest_eq_evalRequest _ _, rfl, ?_⟩
  simp only [State.evalEnc_encResp, State.evalDec_decResp]
  obtain ⟨hfail, hzero⟩ | ⟨hok, e, he, hlen, hfit⟩ := encPorts_failed_or_fits sel len lanes
  · refine ⟨fun hok => absurd hok hfail, fun _ => ?_⟩
    rw [hzero, decPorts_zero]
    exact ⟨rfl, rfl, rfl, fun i _ => lane_replicate_zero i⟩
  · obtain ⟨val, hdec, hlanes⟩ := decPorts_encPorts_word he hlen hfit
    obtain ⟨-, -, -, hcount, -⟩ := entryFor_bounds he
    rw [hok, hdec, countOf_eq he]
    refine ⟨fun _ => ⟨rfl, rfl, ?_, fun i hi => ?_, fun i hi hi' => ?_⟩, fun hstatus => absurd hstatus (by decide)⟩
    · rw [BitVec.toNat_ofNat, Nat.mod_eq_of_lt (by omega)]
    · rw [hlanes i (by omega), if_pos hi]
    · rw [hlanes i (by omega), if_neg hi.not_gt]

/-- Settles O19: trailing zeros change no payload. -/
theorem trailingZerosDoNotShow : Obligations.TrailingZerosDoNotShow := by
  intro s values k hs hlen hk hfit
  obtain ⟨e, he⟩ := hs.exists_entry
  rw [countOf_eq he] at hk
  rw [widthOf_eq he] at hfit
  exact (encodeWord_pad he hk hlen hfit).symm

/-- Settles O21: under 7 and 8 the bits above the slots are [63:60]. -/
theorem decodeThenEncodeCanonicalises : Obligations.DecodeThenEncodeCanonicalises := by
  intro w h
  obtain ⟨e, he, hproduct⟩ := exists_entry_of_seven_or_eight (code := (selectorOf w).toNat)
    (h.imp (congrArg BitVec.toNat) (congrArg BitVec.toNat))
  refine ⟨?_, encodeWord_decodeWord_eq_self_iff he⟩
  rw [encodeWord_decodeWord_eq_word_iff he, hproduct, toNat_and_low60]

/-- Settles O23: only a selector without an entry encodes to the zero word; at the ports a failure shows it too. -/
theorem zeroWordMeansInvalidOrFailure : Obligations.ZeroWordMeansInvalidOrFailure := by
  refine ⟨fun s values => ?_, fun sel len lanes => ⟨encPorts_word_eq_zero_iff sel len lanes, ?_⟩, decodeWord_zero⟩
  · rw [← entryFor_toNat_eq_none_iff]
    cases he : entryFor s.toNat with
    | none => exact iff_of_true (encodeWord_of_noEntry he) rfl
    | some e => exact iff_of_false (encodeWord_ne_zero he) nofun
  · rw [encPorts_status_eq_one_iff, entryFor_toNat_eq_none_iff]

/-- Settles O24: the word's nibble is the selector, and a decode has one element for each slot of its nibble's entry. -/
theorem roundTripLength : Obligations.RoundTripLength := by
  intro s values w hs h
  obtain ⟨e, he⟩ := hs.exists_entry
  obtain rfl := selectorOf_of_encodeWord he h
  rw [countOf_eq he]
  exact (decodeWord_fits he).1

/-- Settles O22: without an entry every encode is the zero word and every decode is empty. -/
theorem invalidSelectorsThroughBothUnits : Obligations.InvalidSelectorsThroughBothUnits := by
  refine ⟨fun s values h => ⟨0, encodeWord_of_noEntry (entryFor_reserved h), decodeWord_zero, decodeWord_zero⟩,
    fun w h => ?_⟩
  have he := entryFor_reserved h
  have hdec : decodeWord w = [] := decodeWord_of_noEntry (selectorOf_toNat w ▸ he)
  rw [hdec, encodeWord_of_noEntry he]
  exact ⟨rfl, rfl, by rw [EncodeResult.word.injEq, eq_comm]⟩

/-- Settles O50: the encodes are evaluated; each decode is then the round trip of its encode. -/
theorem sourceExamplesHold : Obligations.SourceExamplesHold := by
  have h14 : encodeWord 14 [1] = .word 0x000000000000001E := by decide
  have h12 : encodeWord 12 [1, 2, 3] = .word 0x000030000200001C := by decide
  have h1 : encodeWord 1 (List.replicate 60 1) = .word 0xFFFFFFFFFFFFFFF1 := by decide
  have h8 : encodeWord 8 (List.replicate 7 1) = .word 0x0010101010101018 := by decide
  exact ⟨encodeWord_of_noEntry rfl, encodeWord_of_noEntry rfl, decodeWord_zero,
    h14, decodeWord_of_encodeWord_full h14 rfl rfl, h12, decodeWord_of_encodeWord_full h12 rfl rfl,
    h1, decodeWord_of_encodeWord_full h1 rfl rfl, h8, decodeWord_of_encodeWord_full h8 rfl rfl⟩

end Sys2Proof.Stated

/-! ## Proofs of the exceptions family (spec/60_exceptions.md R231, R232, R237): the two failures of an encode, and
what `enc_info` records -/

namespace Sys2Proof.Machine

/-! ### The two failures at the function level (R231, R232) -/

section EncodeWord

variable {s : Code} {e : Entry} {values : List Nat}

theorem encodeWord_eq_tooManyValues_iff {n : Nat} (he : entryFor s.toNat = some e) :
    encodeWord s values = .tooManyValues n ↔ e.count < values.length ∧ n = values.length := by
  constructor
  · intro h
    obtain ⟨hmany, hr⟩ | ⟨-, i, -, -, -, hr⟩ | ⟨-, -, w, hr, -⟩ :=
      answer_of_entry he (encodeWord_cases s values) <;> cases h.symm.trans hr
    exact ⟨hmany, rfl⟩
  · rintro ⟨hmany, rfl⟩
    exact encodeWord_of_tooMany he hmany

theorem encodeWord_eq_valueOutOfRange_iff {i : Nat} (he : entryFor s.toNat = some e) :
    encodeWord s values = .valueOutOfRange i ↔
      values.length ≤ e.count ∧ i < values.length ∧ 2 ^ e.bitWidth ≤ values.getD i 0 ∧
        ∀ j < i, values.getD j 0 < 2 ^ e.bitWidth := by
  constructor
  · intro h
    obtain ⟨-, hr⟩ | ⟨hlen, j, hj, hbig, hlow, hr⟩ | ⟨-, -, w, hr, -⟩ :=
      answer_of_entry he (encodeWord_cases s values) <;> cases h.symm.trans hr
    exact ⟨hlen, hj, hbig, hlow⟩
  · rintro ⟨hlen, hi, hbig, hlow⟩
    exact encodeWord_of_misfit he hlen hi hbig hlow

end EncodeWord

/-! ### The two failures at the ports (R231, R232, R236) -/

section Ports

variable {sel : Code} {e : Entry} {len : Len} {lanes : Lanes}

theorem encPorts_of_tooMany (he : entryFor sel.toNat = some e) (hmany : e.count < len.toNat) :
    encPorts sel len lanes = ⟨0, 2, len⟩ := by
  simp only [encPorts, he, if_pos hmany]
  rfl

theorem encPorts_of_misfit {i : Nat} (he : entryFor sel.toNat = some e) (hlen : len.toNat ≤ e.count)
    (hi : i < len.toNat) (hbig : 2 ^ e.bitWidth ≤ (lane lanes i).toNat)
    (hlow : ∀ j < i, (lane lanes j).toNat < 2 ^ e.bitWidth) :
    encPorts sel len lanes = ⟨0, 3, BitVec.ofNat 6 i⟩ := by
  have hfirst : firstMisfit e.bitWidth len.toNat lanes = some i := firstMisfit_some.2 ⟨hi, hbig, hlow⟩
  simp only [encPorts, he, if_neg hlen.not_gt, hfirst]
  rfl

theorem encPorts_status_eq_two_iff (he : entryFor sel.toNat = some e) :
    (encPorts sel len lanes).status = 2 ↔ e.count < len.toNat := by
  obtain ⟨hmany, hp⟩ | ⟨hlen, i, -, -, -, hp⟩ | ⟨hlen, -, w, hp, -⟩ :=
    answer_of_entry he (encPorts_cases sel len lanes) <;> rw [hp]
  · exact iff_of_true rfl hmany
  · exact iff_of_false (by decide : (3 : BitVec 2) ≠ 2) hlen.not_gt
  · exact iff_of_false (by decide : (0 : BitVec 2) ≠ 2) hlen.not_gt

theorem encPorts_status_eq_three_iff (he : entryFor sel.toNat = some e) :
    (encPorts sel len lanes).status = 3 ↔
      len.toNat ≤ e.count ∧ ∃ i < len.toNat, 2 ^ e.bitWidth ≤ (lane lanes i).toNat := by
  obtain ⟨hmany, hp⟩ | ⟨hlen, i, hi, hbig, -, hp⟩ | ⟨-, hfit, w, hp, -⟩ :=
    answer_of_entry he (encPorts_cases sel len lanes) <;> rw [hp]
  · exact iff_of_false (by decide : (2 : BitVec 2) ≠ 3) fun ⟨hlen, _⟩ => hlen.not_gt hmany
  · exact iff_of_true rfl ⟨hlen, i, hi, hbig⟩
  · exact iff_of_false (by decide : (0 : BitVec 2) ≠ 3) fun ⟨_, i, hi, hbig⟩ => hbig.not_gt (hfit i hi)

/-- `enc_info` is wide enough for the index of any lane below `enc_len` (R237). -/
theorem toNat_ofNat_of_lt_len {i : Nat} (hi : i < len.toNat) : (BitVec.ofNat 6 i).toNat = i := by
  rw [BitVec.toNat_ofNat, Nat.mod_eq_of_lt (hi.trans len.isLt)]

end Ports

end Sys2Proof.Machine

namespace Sys2Proof.Stated

open Machine

/-- An outcome that no selector without an entry has is a valid selector's, with the cause its entry gives. -/
theorem iff_valid_and {s : Code} {outcome cause : Prop} (hnone : entryFor s.toNat = none → ¬ outcome)
    (hentry : ∀ e, entryFor s.toNat = some e → (outcome ↔ cause)) : outcome ↔ Valid s ∧ cause := by
  cases he : entryFor s.toNat with
  | none =>
    refine iff_of_false (hnone he) fun ⟨hs, _⟩ => ?_
    obtain ⟨e, he'⟩ := hs.exists_entry
    cases he.symm.trans he'
  | some e =>
    obtain ⟨hlow, hhigh, -⟩ := entryFor_bounds he
    rw [hentry e he, and_iff_right (⟨hlow, hhigh⟩ : Valid s)]

/-! ### The ENCODE forms that can fail (R151 to R164) -/

section Forms

variable {mk : Len → Lanes → Instr} {sel : Code} {count bitWidth : Nat}

/-- A form that asks for a selector with an entry reports a length above its count. -/
theorem encodeReportsTooMany_of_entry (hmk : ∀ len lanes, encodeRequest (mk len lanes) = .encReq sel len lanes)
    (he : entryFor sel.toNat = some ⟨count, bitWidth⟩) : EncodeReportsTooMany mk sel count := by
  intro len lanes s hmany
  rw [exec_of_encReq (hmk len lanes), State.evalEnc, encPorts_of_tooMany he hmany]

/-- A form that asks for a selector with an entry reports the first lane wider than its slots. -/
theorem encodeReportsMisfit_of_entry (hmk : ∀ len lanes, encodeRequest (mk len lanes) = .encReq sel len lanes)
    (he : entryFor sel.toNat = some ⟨count, bitWidth⟩) : EncodeReportsMisfit mk sel count bitWidth := by
  intro len lanes s i hlen hi hbig hlow
  rw [exec_of_encReq (hmk len lanes), State.evalEnc, encPorts_of_misfit he hlen hi hbig hlow]

end Forms

/-! ### The statements -/

/-- Settles O29, along the four answers of the encoder's ports: each has one status, which leaves one clause to show. -/
theorem encodeInfoRecordsFailure : Obligations.EncodeInfoRecordsFailure := by
  intro sel len lanes
  obtain ⟨-, hp⟩ | ⟨e, he, hcase⟩ := encPorts_cases sel len lanes
  · rw [hp]
    exact ⟨fun _ => rfl, fun h => absurd h (by decide), fun h => absurd h (by decide)⟩
  obtain ⟨-, -, hpos, hcount, -⟩ := entryFor_bounds he
  obtain ⟨hmany, hp⟩ | ⟨hlen, i, hi, hbig, hlow, hp⟩ | ⟨-, -, w, hp, -⟩ := hcase <;> rw [hp] <;> dsimp only
  case inl =>
    have hinfo : 2 ≤ len.toNat := by omega
    exact ⟨fun h => absurd h (by decide), fun _ => ⟨rfl, hinfo⟩, fun h => absurd h (by decide)⟩
  case inr.inl =>
    have hlast : i ≤ 59 := by omega
    simp only [toNat_ofNat_of_lt_len hi, widthOf_eq he]
    exact ⟨fun h => absurd h (by decide), fun h => absurd h (by decide), fun _ => ⟨hi, hlast, hbig, hlow⟩⟩
  case inr.inr =>
    exact ⟨fun _ => rfl, fun h => absurd h (by decide), fun h => absurd h (by decide)⟩

/-- Settles O33: each form asks for its own selector, whose row of O1 gives the count; status 2 and the failure of the
function level have the one cause, and without an entry there is neither. -/
theorem encodeFormsReportTooManyValues : Obligations.EncodeFormsReportTooManyValues := by
  obtain ⟨h1, h2, h3, h4, h5, h6, h7, h8, h9, h10, h11, h12, h13, h14, -⟩ := selectorTableIsCanonical
  refine ⟨⟨encodeReportsTooMany_of_entry (fun _ _ => rfl) h1, encodeReportsTooMany_of_entry (fun _ _ => rfl) h2,
    encodeReportsTooMany_of_entry (fun _ _ => rfl) h3, encodeReportsTooMany_of_entry (fun _ _ => rfl) h4,
    encodeReportsTooMany_of_entry (fun _ _ => rfl) h5, encodeReportsTooMany_of_entry (fun _ _ => rfl) h6,
    encodeReportsTooMany_of_entry (fun _ _ => rfl) h7, encodeReportsTooMany_of_entry (fun _ _ => rfl) h8,
    encodeReportsTooMany_of_entry (fun _ _ => rfl) h9, encodeReportsTooMany_of_entry (fun _ _ => rfl) h10,
    encodeReportsTooMany_of_entry (fun _ _ => rfl) h11, encodeReportsTooMany_of_entry (fun _ _ => rfl) h12,
    encodeReportsTooMany_of_entry (fun _ _ => rfl) h13, encodeReportsTooMany_of_entry (fun _ _ => rfl) h14⟩,
    fun sel len lanes => iff_valid_and (fun he => ?_) fun e he => ?_,
    fun s values n => iff_valid_and (fun he => ?_) fun e he => ?_⟩
  · rw [encPorts_of_noEntry he]
    exact (by decide : (1 : BitVec 2) ≠ 2)
  · rw [countOf_eq he]
    exact encPorts_status_eq_two_iff he
  · rw [encodeWord_of_noEntry he]
    nofun
  · rw [countOf_eq he]
    exact encodeWord_eq_tooManyValues_iff he

/-- Settles O34, as O33: the cause is now a lane, or a value, that does not fit; no count is above 60, so the index is
at most 59. -/
theorem encodeFormsReportValueOutOfRange : Obligations.EncodeFormsReportValueOutOfRange := by
  obtain ⟨h1, h2, h3, h4, h5, h6, h7, h8, h9, h10, h11, h12, h13, h14, -⟩ := selectorTableIsCanonical
  refine ⟨⟨encodeReportsMisfit_of_entry (fun _ _ => rfl) h1, encodeReportsMisfit_of_entry (fun _ _ => rfl) h2,
    encodeReportsMisfit_of_entry (fun _ _ => rfl) h3, encodeReportsMisfit_of_entry (fun _ _ => rfl) h4,
    encodeReportsMisfit_of_entry (fun _ _ => rfl) h5, encodeReportsMisfit_of_entry (fun _ _ => rfl) h6,
    encodeReportsMisfit_of_entry (fun _ _ => rfl) h7, encodeReportsMisfit_of_entry (fun _ _ => rfl) h8,
    encodeReportsMisfit_of_entry (fun _ _ => rfl) h9, encodeReportsMisfit_of_entry (fun _ _ => rfl) h10,
    encodeReportsMisfit_of_entry (fun _ _ => rfl) h11, encodeReportsMisfit_of_entry (fun _ _ => rfl) h12,
    encodeReportsMisfit_of_entry (fun _ _ => rfl) h13, encodeReportsMisfit_of_entry (fun _ _ => rfl) h14⟩,
    fun sel len lanes => iff_valid_and (fun he => ?_) fun e he => ?_,
    fun s values i => iff_valid_and (fun he => ?_) fun e he => ?_⟩
  · rw [encPorts_of_noEntry he]
    exact (by decide : (1 : BitVec 2) ≠ 3)
  · rw [countOf_eq he, widthOf_eq he]
    exact encPorts_status_eq_three_iff he
  · rw [encodeWord_of_noEntry he]
    nofun
  · obtain ⟨-, -, -, hcount, -⟩ := entryFor_bounds he
    rw [countOf_eq he, widthOf_eq he, encodeWord_eq_valueOutOfRange_iff he]
    constructor
    · rintro ⟨hlen, hi, hbig, hlow⟩
      exact ⟨hlen, hi, by omega, hbig, hlow⟩
    · rintro ⟨hlen, hi, -, hbig, hlow⟩
      exact ⟨hlen, hi, hbig, hlow⟩

end Sys2Proof.Stated

/-! ## Proofs of the reset and hazards family (spec/70_reset_and_hazards.md R266, R269): completion, and what an
operation touches -/

namespace Sys2Proof.Machine

/-- An evaluation takes no request from those that wait: a step does, before it evaluates. -/
@[simp] theorem State.evalRequest_requests (s : State) (r : Request) : (s.evalRequest r).requests = s.requests := by
  cases r <;> rfl

end Sys2Proof.Machine

namespace Sys2Proof.Stated

open Machine

/-! ### The statements -/

/-- Settles O42: a form evaluates the unit of its own request, and for each of the three kinds of request that unit's
signals are set from the request alone and the others are kept. -/
theorem operationsTouchTheirUnitOnly : Obligations.OperationsTouchTheirUnitOnly := by
  intro i s s' t t' h h'
  rw [exec_eq_evalRequest] at h h'
  injection h with h
  injection h' with h'
  subst h h'
  refine ⟨s.evalRequest_requests _, ?_⟩
  unfold encode
  cases encodeRequest i with
  | romAddr c => exact ⟨rfl, rfl, rfl⟩
  | encReq sel len lanes => exact ⟨rfl, rfl, rfl⟩
  | word w => exact ⟨rfl, rfl, rfl⟩

/-- Settles O41: every form ends in an evaluation, and a step is idle or runs the form of the oldest request. -/
theorem everyStepCompletes : Obligations.EveryStepCompletes := by
  have hexec : ∀ (i : Instr) (s : State), ∃ t, exec i s = .next t := fun i s => ⟨_, exec_eq_evalRequest s i⟩
  refine ⟨hexec, fun s => ?_⟩
  cases hr : s.requests with
  | nil => exact ⟨s, step_of_noRequest hr⟩
  | cons r rest =>
    rw [step_of_request hr]
    exact hexec _ _

end Sys2Proof.Stated
